-- ==== Sys2Proof/Word.lean ====
section
/-! DEFINITION. The machine's word, its 4-bit instruction fields and its register numbers
(00_scope.md R5, R7, R8). -/

namespace Sys2Proof

/-- R8: every value of the machine is a Word, a 16-bit unsigned integer; `+` and `-` wrap modulo 2^16. -/
abbrev Word := BitVec 16

/-- R60: a 4-bit field of an instruction word. -/
abbrev Nibble := BitVec 4

/-- R20: the number of a general register, 0 to 15. -/
abbrev Reg := Fin 16

/-- R5: the number of words of each bank. -/
def bankSize : Nat := 65536

end Sys2Proof
end

