-- ==== Sys2Proof/Config.lean ====
section
/-! DEFINITION. The three values the spec leaves open (00_scope.md R6), as uninterpreted constants: no
proof can see what they are, so a claim holds whatever they are. They are fixed for the whole run (R28). -/

namespace Sys2Proof

/-- R6 `POP_FLAG`: the flag Pop extracts from its own instruction word (D1; log 4). OPEN: a free value. -/
opaque Config.popFlag : Word → Bool

/-- The free value behind `Config.signMask`: any word at all (log 5). -/
opaque Config.signMaskDraw : Word

/-- R6 `SIGN_MASK`: the mask of conditions 2 and 3 (D2; log 5). OPEN, with the one constraint the source gives,
`SIGN_MASK ≠ 0x8000`: every other word is a possible value, and 0x8000 is not. -/
def Config.signMask : Word :=
  if Config.signMaskDraw = 0x8000#16 then 0x0000#16 else Config.signMaskDraw

/-- R6 `CJ_EXT_TAKEN`: whether a Conditional Jump with condition field 4 to 15 is taken, given the tested value
(D3; log 6). OPEN: a free value. Nothing applies it to a condition 0 to 3. -/
opaque Config.cjExtTaken : Nibble → Word → Bool

end Sys2Proof
end

