-- ==== Sys2Proof/Syntax.lean ====
section
/-! DEFINITION. The instructions: one constructor per row of spec/opcode_table.json (30_encoding.md R65). -/

namespace Sys2Proof

/-- The destination register comes first, as in the assembler syntax of R70. A register field the instruction
ignores (R66) is no argument. -/
inductive Instr where
  /-- R80, opcode 0x0. -/
  | mov (rY rA : Reg)
  /-- R81, opcode 0x1; `imm` is the second word. -/
  | ldi (rY : Reg) (imm : Word)
  /-- R82, opcode 0x2: value `x[rA]`, address `x[rB]`. -/
  | st (rA rB : Reg)
  /-- R83, opcode 0x3: address `x[rA]`, `x[rB]` goes to `mar`. -/
  | ld (rY rA rB : Reg)
  /-- R90, opcode 0x4. -/
  | bitOr (rY rA rB : Reg)
  /-- R91, opcode 0x5. -/
  | bitNot (rY rA : Reg)
  /-- R92, opcode 0x6. -/
  | bitAnd (rY rA rB : Reg)
  /-- R93, opcode 0x7. -/
  | bitXor (rY rA rB : Reg)
  /-- R94, opcode 0x8. -/
  | add (rY rA rB : Reg)
  /-- R95, opcode 0x9: `x[rA] - x[rB]`. -/
  | sub (rY rA rB : Reg)
  /-- R96, opcode 0xA. -/
  | lnot (rY rA : Reg)
  /-- R97, opcode 0xB. -/
  | shr (rY rA : Reg)
  /-- R110, opcode 0xC with bit 7 clear. -/
  | push (rA : Reg)
  /-- R110, opcode 0xC with bit 7 set. -/
  | pushPc
  /-- R111, opcode 0xD. `mid` is bits 11:4 of the word: no operand, but `POP_FLAG` may read any bit of the word
  (R66, R67), so they are kept. -/
  | pop (rY : Reg) (mid : BitVec 8)
  /-- R120, opcode 0xE. -/
  | jmp (rA : Reg)
  /-- R122, opcode 0xF, condition 0: target `x[rA]`, tested value `x[rB]`. -/
  | jz (rA rB : Reg)
  /-- R122, condition 1. -/
  | jnz (rA rB : Reg)
  /-- R122, condition 2. -/
  | jneg (rA rB : Reg)
  /-- R122, condition 3. -/
  | jpos (rA rB : Reg)
  /-- R122, conditions 4 to 7 (the table's first JC row); `c` is the condition number. -/
  | jcMid (c : Nibble) (rA rB : Reg)
  /-- R122, conditions 8 to 15 (the table's second JC row). -/
  | jcHigh (c : Nibble) (rA rB : Reg)
  deriving DecidableEq, Repr

end Sys2Proof
end

