-- ==== Sys2Proof/WellFormed.lean ====
section
/-! DEFINITION. Which terms of `Instr` an instruction word can stand for. Register numbers, the literal and
the ignored bits of Pop are bounded by their types; the condition of the two JC rows is checked here. -/

namespace Sys2Proof

/-- The condition of a JC row lies in that row's range (R121; opcode_table.json's two JC rows). -/
def Instr.wellFormed : Instr → Bool
  | .jcMid c _ _ => decide (4 ≤ c.toNat ∧ c.toNat ≤ 7)
  | .jcHigh c _ _ => decide (8 ≤ c.toNat)
  | .mov _ _ => true
  | .ldi _ _ => true
  | .st _ _ => true
  | .ld _ _ _ => true
  | .bitOr _ _ _ => true
  | .bitNot _ _ => true
  | .bitAnd _ _ _ => true
  | .bitXor _ _ _ => true
  | .add _ _ _ => true
  | .sub _ _ _ => true
  | .lnot _ _ => true
  | .shr _ _ => true
  | .push _ => true
  | .pushPc => true
  | .pop _ _ => true
  | .jmp _ => true
  | .jz _ _ => true
  | .jnz _ _ => true
  | .jneg _ _ => true
  | .jpos _ _ => true

end Sys2Proof
end

