-- ==== Sys2Proof/Decode.lean ====
section
/-! DEFINITION. Decoding instruction words (30_encoding.md R60–R69), after it encoding, then the opcode table and the
notation (R65, R70, R71). -/

namespace Sys2Proof

/-! ### Fields -/

/-- The 4-bit field of `w` whose lowest bit is bit `lo` (R7). -/
def field (w : Word) (lo : Nat) : Nibble := w.extractLsb' lo 4

/-- R10: `op = w[15:12]`. -/
def opOf (w : Word) : Nibble := field w 12

/-- R10: `rA = w[11:8]`. -/
def fieldA (w : Word) : Nibble := field w 8

/-- R10: `rB = w[7:4]`. -/
def fieldB (w : Word) : Nibble := field w 4

/-- R10: `rY = w[3:0]`. -/
def fieldY (w : Word) : Nibble := field w 0

/-- R63: a register field of value n names `x[n]`. -/
def regOf (n : Nibble) : Reg := n.toFin

/-- R64: Push's flag is `w[7]`. -/
def pushFlag (w : Word) : Bool := w.getLsbD 7

/-- Bits 11:4 of a Pop word, which its `POP_FLAG` may read (R67). -/
def popMid (w : Word) : BitVec 8 := w.extractLsb' 4 8

/-! ### Decoding -/

/-- R62: the length is told from the opcode alone; only Load Immediate has a second word. -/
def isTwoWord (w : Word) : Bool := opOf w == 0x1#4

/-- The Conditional Jump, by its condition field (R121 and the table's JZ, JNZ, JNEG, JPOS and JC rows). -/
def decodeJump (c : Nibble) (a b : Reg) : Instr :=
  match c.toNat with
  | 0 => .jz a b
  | 1 => .jnz a b
  | 2 => .jneg a b
  | 3 => .jpos a b
  | 4 | 5 | 6 | 7 => .jcMid c a b
  | _ => .jcHigh c a b

/-- The instruction whose first word is `w` and whose second word, if it has one, is `lit`. Every word is an
instruction (R65, R67), so this is total; the last alternative is opcode 0xF and no other. -/
def decodeWords (w lit : Word) : Instr :=
  let a := regOf (fieldA w)
  let b := regOf (fieldB w)
  let y := regOf (fieldY w)
  match (opOf w).toNat with
  | 0x0 => .mov y a
  | 0x1 => .ldi y lit
  | 0x2 => .st a b
  | 0x3 => .ld y a b
  | 0x4 => .bitOr y a b
  | 0x5 => .bitNot y a
  | 0x6 => .bitAnd y a b
  | 0x7 => .bitXor y a b
  | 0x8 => .add y a b
  | 0x9 => .sub y a b
  | 0xA => .lnot y a
  | 0xB => .shr y a
  | 0xC => if pushFlag w then .pushPc else .push a
  | 0xD => .pop y (popMid w)
  | 0xE => .jmp a
  | _ => decodeJump (fieldY w) a b

/-- Why a list of words is no instruction: only because it ends too soon (R67: no word is illegal). -/
inductive DecodeError where
  /-- The list is empty. -/
  | noWord
  /-- The list ends after the first word of a Load Immediate. -/
  | noLiteral
  deriving DecidableEq, Repr

/-- The first instruction of a list of words, with the words after it (R61). -/
def decode : List Word → Except DecodeError (Instr × List Word)
  | [] => .error .noWord
  | w :: rest =>
    if isTwoWord w then
      match rest with
      | [] => .error .noLiteral
      | lit :: rest' => .ok (decodeWords w lit, rest')
    else .ok (decodeWords w 0x0000#16, rest)

/-- What the decoder reads from an instruction whose bits are `w`, the first word in bits 15:0 and a second in
bits 31:16; bits from `nbits` up are 0. -/
def decodeTableWord (nbits w : Nat) : Option Instr :=
  let bits := w % 2 ^ nbits
  match decode [BitVec.ofNat 16 bits, BitVec.ofNat 16 (bits / 2 ^ 16)] with
  | .ok (i, _) => some i
  | .error _ => none

/-! ### Encoding -/

/-- R60: `w = (op << 12) | (rA << 8) | (rB << 4) | rY`. -/
def packWord (op a b y : Nibble) : Word := ((op ++ a) ++ b) ++ y

/-- The field that names a register (R63). -/
def regBits (r : Reg) : Nibble := BitVec.ofFin r

/-- The word of a Pop with destination field `rY` and bits 11:4 equal to `mid` (R111). -/
def popInstrWord (rY : Reg) (mid : BitVec 8) : Word := (0xD#4 ++ mid) ++ regBits rY

/-- The first word of an instruction; every ignored bit is 0 (R69), Pop's kept bits excepted. -/
def encodeFirst : Instr → Word
  | .mov y a => packWord 0x0 (regBits a) 0 (regBits y)
  | .ldi y _ => packWord 0x1 0 0 (regBits y)
  | .st a b => packWord 0x2 (regBits a) (regBits b) 0
  | .ld y a b => packWord 0x3 (regBits a) (regBits b) (regBits y)
  | .bitOr y a b => packWord 0x4 (regBits a) (regBits b) (regBits y)
  | .bitNot y a => packWord 0x5 (regBits a) 0 (regBits y)
  | .bitAnd y a b => packWord 0x6 (regBits a) (regBits b) (regBits y)
  | .bitXor y a b => packWord 0x7 (regBits a) (regBits b) (regBits y)
  | .add y a b => packWord 0x8 (regBits a) (regBits b) (regBits y)
  | .sub y a b => packWord 0x9 (regBits a) (regBits b) (regBits y)
  | .lnot y a => packWord 0xA (regBits a) 0 (regBits y)
  | .shr y a => packWord 0xB (regBits a) 0 (regBits y)
  | .push a => packWord 0xC (regBits a) 0x0 0
  | .pushPc => packWord 0xC 0 0x8 0
  | .pop y mid => popInstrWord y mid
  | .jmp a => packWord 0xE (regBits a) 0 0
  | .jz a b => packWord 0xF (regBits a) (regBits b) 0
  | .jnz a b => packWord 0xF (regBits a) (regBits b) 1
  | .jneg a b => packWord 0xF (regBits a) (regBits b) 2
  | .jpos a b => packWord 0xF (regBits a) (regBits b) 3
  | .jcMid c a b => packWord 0xF (regBits a) (regBits b) c
  | .jcHigh c a b => packWord 0xF (regBits a) (regBits b) c

/-- The words of an instruction, first word first (R61). -/
def encode (i : Instr) : List Word :=
  match i with
  | .ldi _ imm => [encodeFirst i, imm]
  | _ => [encodeFirst i]

/-! ### The opcode table -/

/-- The opcode of an instruction (R65). -/
def Instr.opcode : Instr → Nibble
  | .mov _ _ => 0x0
  | .ldi _ _ => 0x1
  | .st _ _ => 0x2
  | .ld _ _ _ => 0x3
  | .bitOr _ _ _ => 0x4
  | .bitNot _ _ => 0x5
  | .bitAnd _ _ _ => 0x6
  | .bitXor _ _ _ => 0x7
  | .add _ _ _ => 0x8
  | .sub _ _ _ => 0x9
  | .lnot _ _ => 0xA
  | .shr _ _ => 0xB
  | .push _ => 0xC
  | .pushPc => 0xC
  | .pop _ _ => 0xD
  | .jmp _ => 0xE
  | .jz _ _ => 0xF
  | .jnz _ _ => 0xF
  | .jneg _ _ => 0xF
  | .jpos _ _ => 0xF
  | .jcMid _ _ _ => 0xF
  | .jcHigh _ _ _ => 0xF

/-- R61: how many words the instruction has. -/
def Instr.length : Instr → Nat
  | .ldi _ _ => 2
  | _ => 1

/-- The bits of a word with opcode `op` that its effect may depend on: all but those R66 lists as ignored,
and all of a Pop word (R67). Push is split by its flag, bit 7. -/
def usedBits (w : Word) : Word :=
  match (opOf w).toNat with
  | 0x0 => 0xFF0F
  | 0x1 => 0xF00F
  | 0x2 => 0xFFF0
  | 0x5 => 0xFF0F
  | 0xA => 0xFF0F
  | 0xB => 0xFF0F
  | 0xC => if pushFlag w then 0xF080 else 0xFF80
  | 0xE => 0xFF00
  | _ => 0xFFFF

/-- One row of spec/opcode_table.json: its mnemonic, mask and match. -/
structure OpcodeRow where
  mnemonic : String
  mask : Word
  value : Word
  deriving DecidableEq, Repr

/-- The row's match under its mask. -/
def OpcodeRow.fits (r : OpcodeRow) (w : Word) : Bool := w &&& r.mask == r.value

/-- The rows of spec/opcode_table.json, in its order: mnemonic, mask, match. -/
def opcodeTable : List OpcodeRow :=
  [⟨"MOV", 0xF000, 0x0000⟩,
   ⟨"LDI", 0xF000, 0x1000⟩,
   ⟨"ST", 0xF000, 0x2000⟩,
   ⟨"LD", 0xF000, 0x3000⟩,
   ⟨"OR", 0xF000, 0x4000⟩,
   ⟨"NOT", 0xF000, 0x5000⟩,
   ⟨"AND", 0xF000, 0x6000⟩,
   ⟨"XOR", 0xF000, 0x7000⟩] ++
  [⟨"ADD", 0xF000, 0x8000⟩,
   ⟨"SUB", 0xF000, 0x9000⟩,
   ⟨"LNOT", 0xF000, 0xA000⟩,
   ⟨"SHR", 0xF000, 0xB000⟩,
   ⟨"PUSH", 0xF080, 0xC000⟩,
   ⟨"PUSH_PC", 0xF080, 0xC080⟩,
   ⟨"POP", 0xF000, 0xD000⟩,
   ⟨"JMP", 0xF000, 0xE000⟩] ++
  [⟨"JZ", 0xF00F, 0xF000⟩,
   ⟨"JNZ", 0xF00F, 0xF001⟩,
   ⟨"JNEG", 0xF00F, 0xF002⟩,
   ⟨"JPOS", 0xF00F, 0xF003⟩,
   ⟨"JC", 0xF00C, 0xF004⟩,
   ⟨"JC", 0xF008, 0xF008⟩]

/-- The mnemonic of an instruction's row of spec/opcode_table.json (R65; D10). -/
def Instr.mnemonic : Instr → String
  | .mov _ _ => "MOV"
  | .ldi _ _ => "LDI"
  | .st _ _ => "ST"
  | .ld _ _ _ => "LD"
  | .bitOr _ _ _ => "OR"
  | .bitNot _ _ => "NOT"
  | .bitAnd _ _ _ => "AND"
  | .bitXor _ _ _ => "XOR"
  | .add _ _ _ => "ADD"
  | .sub _ _ _ => "SUB"
  | .lnot _ _ => "LNOT"
  | .shr _ _ => "SHR"
  | .push _ => "PUSH"
  | .pushPc => "PUSH_PC"
  | .pop _ _ => "POP"
  | .jmp _ => "JMP"
  | .jz _ _ => "JZ"
  | .jnz _ _ => "JNZ"
  | .jneg _ _ => "JNEG"
  | .jpos _ _ => "JPOS"
  | .jcMid _ _ _ => "JC"
  | .jcHigh _ _ _ => "JC"

/-! ### Notation -/

/-- R71: `NOP` is `MOV r0, r0`. -/
def Instr.nop : Instr := .mov 0 0

/-- R71: `CLR rY` is `XOR rY, rY, rY`. -/
def Instr.clr (y : Reg) : Instr := .bitXor y y y

/-- R70: a register is written `r0` to `r15`. -/
def asmReg (r : Reg) : String := "r" ++ toString r.val

/-- A line of R70's syntax. -/
def asmLine (m : String) (operands : List String) : String := m ++ " " ++ ", ".intercalate operands

/-- R70, R71: how the spec writes an instruction (its own notation, D10), literals in decimal. -/
def Instr.assembly : Instr → String
  | .mov y a => asmLine "MOV" [asmReg y, asmReg a]
  | .ldi y imm => asmLine "LDI" [asmReg y, toString imm.toNat]
  | .st a b => asmLine "ST" [asmReg a, "[" ++ asmReg b ++ "]"]
  | .ld y a b => asmLine "LD" [asmReg y, "[" ++ asmReg a ++ "]", asmReg b]
  | .bitOr y a b => asmLine "OR" [asmReg y, asmReg a, asmReg b]
  | .bitNot y a => asmLine "NOT" [asmReg y, asmReg a]
  | .bitAnd y a b => asmLine "AND" [asmReg y, asmReg a, asmReg b]
  | .bitXor y a b => asmLine "XOR" [asmReg y, asmReg a, asmReg b]
  | .add y a b => asmLine "ADD" [asmReg y, asmReg a, asmReg b]
  | .sub y a b => asmLine "SUB" [asmReg y, asmReg a, asmReg b]
  | .lnot y a => asmLine "LNOT" [asmReg y, asmReg a]
  | .shr y a => asmLine "SHR" [asmReg y, asmReg a]
  | .push a => asmLine "PUSH" [asmReg a]
  | .pushPc => asmLine "PUSH" ["PC"]
  | .pop y _ => asmLine "POP" [asmReg y]
  | .jmp a => asmLine "JMP" [asmReg a]
  | .jz a b => asmLine "JZ" [asmReg a, asmReg b]
  | .jnz a b => asmLine "JNZ" [asmReg a, asmReg b]
  | .jneg a b => asmLine "JNEG" [asmReg a, asmReg b]
  | .jpos a b => asmLine "JPOS" [asmReg a, asmReg b]
  | .jcMid c a b => asmLine "JC" [toString c.toNat, asmReg a, asmReg b]
  | .jcHigh c a b => asmLine "JC" [toString c.toNat, asmReg a, asmReg b]

end Sys2Proof
end

