-- ==== Sys2Proof/Machine/State.lean ====
section
/-! DEFINITION. The state of the core (10_state.md R28), what it is at reset (R32), and the reasons a step
could stop (there is none: 60_exceptions.md R130). -/

namespace Sys2Proof.Machine

/-- One listed cell of a bank: its address and the word it holds. The addressable unit is the 16-bit word:
there is no byte address and no byte order (R43; log 1). -/
abbrev Cell := Nat × Word

/-- One bank of 65536 words (R40), as the list of its nonzero cells with addresses strictly rising. -/
abbrev Memory := List Cell

/-- R9, R40: the names of the three banks. -/
inductive Bank where
  /-- The instruction bank. -/
  | I
  /-- The data bank. -/
  | D
  /-- The stack bank. -/
  | S
  deriving DecidableEq, Repr

/-- R28: the complete state of the core. -/
structure State where
  /-- R20: the general registers `x[0]` to `x[15]`. -/
  x : Vector Word 16
  /-- R22: the program counter, an address of bank I. -/
  pc : Word
  /-- R24: the stack pointer, the address in bank S of the next free slot. -/
  rsp : Word
  /-- R25: the memory address register; no instruction reads it. -/
  mar : Word
  /-- R26: the data bank's updated flag. -/
  dUpd : Bool
  /-- R26: the stack bank's updated flag. -/
  sUpd : Bool
  /-- R40, R42: the instruction bank. -/
  bankI : Memory
  /-- R40, R42: the data bank. -/
  bankD : Memory
  /-- R40, R42: the stack bank. -/
  bankS : Memory
  deriving DecidableEq, Repr

/-- R32: the state at creation, before the loader runs. The values of `mar`, `dUpd` and `sUpd` are the spec's
own decisions D5 and D6 (log 2, 3). -/
def State.reset : State where
  x := Vector.replicate 16 0x0000#16
  pc := 0x0000#16
  rsp := 0x0000#16
  mar := 0x0000#16
  dUpd := false
  sUpd := false
  bankI := []
  bankD := []
  bankS := []

/-- The faults of the machine: none. R130: "The core raises no exception of any kind during execution", so the
type has no constructor and no step can answer a fault. Nobody raises one; nothing is lost (safe). -/
inductive Fault where
  deriving DecidableEq, Repr

/-- The refusals of the model. -/
inductive Refusal where
  /-- Raised by an arm of `exec` whose instruction has no meaning yet; no arm raises it now. Safe: the run stops. -/
  | notModelled (mnemonic : String)
  deriving DecidableEq, Repr

/-- The answer of a step (R11): a next state, or (in this model never) a stop. -/
abbrev Result := Host.Outcome State Fault Refusal

end Sys2Proof.Machine
end

