-- ==== Sys2Proof/Machine/Ops.lean ====
section
/-! DEFINITION. The named operations over banks, registers and scalars that every meaning is built from.
There is no operation that takes an exception and none that returns from one: the core has neither
(60_exceptions.md R130, R133, R134). -/

namespace Sys2Proof.Machine

/-! ### One bank -/

/-- What an unlisted address reads as: banks are zero-initialised (R32, R40, R46). -/
def Memory.unlisted : Word := 0x0000#16

/-- The word at address `a` (R41). -/
def Memory.read : Memory → Nat → Word
  | [], _ => Memory.unlisted
  | (k, v) :: m, a => if k = a then v else Memory.read m a

/-- Take every cell of address `a` out of the list. -/
def Memory.erase (m : Memory) (a : Nat) : Memory := m.filter fun c => decide (c.1 ≠ a)

/-- Put a cell in front of the first one with a higher address. -/
def Memory.insert : Memory → Nat → Word → Memory
  | [], a, v => [(a, v)]
  | (k, u) :: m, a, v => if a < k then (a, v) :: (k, u) :: m else (k, u) :: Memory.insert m a v

/-- Write the word `v` at address `a` (R41), keeping the canonical form: a cell that would hold what an unlisted
address reads as is not listed. -/
def Memory.write (m : Memory) (a : Nat) (v : Word) : Memory :=
  if v = Memory.unlisted then Memory.erase m a else Memory.insert (Memory.erase m a) a v

/-- Addresses strictly rise from `lo` on and lie inside the bank, and no cell holds what an unlisted address
reads as. -/
def Memory.wfFrom : Nat → Memory → Bool
  | _, [] => true
  | lo, (k, v) :: m =>
    decide (lo ≤ k) && decide (k < bankSize) && decide (v ≠ Memory.unlisted) && Memory.wfFrom (k + 1) m

/-- The canonical form of a bank. -/
def Memory.wf (m : Memory) : Bool := Memory.wfFrom 0 m

/-! ### The three banks of a state -/

/-- The contents of a bank. -/
def bank (B : Bank) (s : State) : Memory :=
  match B with
  | .I => s.bankI
  | .D => s.bankD
  | .S => s.bankS

/-- Replace the contents of a bank; the other two are untouched (R40). -/
def setBank (B : Bank) (m : Memory) (s : State) : State :=
  match B with
  | .I => { s with bankI := m }
  | .D => { s with bankD := m }
  | .S => { s with bankS := m }

/-- R9 `MemRead(B, a, 1)`: every address of every bank exists (R41, R47). -/
def memRead (B : Bank) (a : Word) (s : State) : Word := Memory.read (bank B s) a.toNat

/-- R9 `MemWrite(B, a, 1, v)`. -/
def memWrite (B : Bank) (a v : Word) (s : State) : State :=
  setBank B (Memory.write (bank B s) a.toNat v) s

/-! ### Registers and scalars -/

/-- R9 `x[r]`; no register is hard-wired (R20). -/
def readReg (r : Reg) (s : State) : Word := s.x[r.val]

/-- R9 `x[r] <- v`: the whole register is replaced (R21). -/
def writeReg (r : Reg) (v : Word) (s : State) : State := { s with x := s.x.set r.val v }

/-- R9 `pc <- target`. -/
def setPc (target : Word) (s : State) : State := { s with pc := target }

/-- R23: `pc <- pc + n`, modulo 2^16. -/
def advance (n : Word) (s : State) : State := setPc (s.pc + n) s

/-- R24: replace the stack pointer. -/
def setRsp (v : Word) (s : State) : State := { s with rsp := v }

/-- R25, R26: what Store and Load leave for the renderer, `mar <- v` and `dUpd <- 1`. -/
def markData (v : Word) (s : State) : State := { s with mar := v, dUpd := true }

/-- R26: what Push and Pop leave for the renderer, `sUpd <- 1`. -/
def markStack (s : State) : State := { s with sUpd := true }

/-! ### Shared shapes of instructions -/

/-- An instruction that writes one register and goes on with the next word (R80, 41_alu.md). -/
def putResult (y : Reg) (v : Word) (s : State) : State := advance 1 (writeReg y v s)

/-- R122: replace pc by `x[a]` if the jump is taken, else advance it by 1. -/
def branch (taken : Bool) (a : Reg) (s : State) : State :=
  if taken then setPc (readReg a s) s else advance 1 s

/-! ### Fetch -/

/-- R156 step 1: the instruction's first word. -/
def fetchWord (s : State) : Word := memRead .I s.pc s

/-- R81: the word after it, at `(pc + 1) mod 2^16` (D7; log 7); only Load Immediate uses it (R45). -/
def fetchLiteral (s : State) : Word := memRead .I (s.pc + 1) s

/-- The words of the instruction at pc: one, or two for Load Immediate (R61, R62). -/
def fetchWords (s : State) : List Word :=
  if isTwoWord (fetchWord s) then [fetchWord s, fetchLiteral s] else [fetchWord s]

/-- R156 steps 1 and 2: fetch and decode. -/
def fetchInstr (s : State) : Instr := decodeWords (fetchWord s) (fetchLiteral s)

end Sys2Proof.Machine
end

