-- ==== Sys2Proof/Machine/Alu.lean ====
section
/-! DEFINITION. The ALU instructions (41_alu.md). Sources are read before the result is written, and pc advances
by 1; nothing else changes. -/

namespace Sys2Proof.Machine

/-! ### What is computed -/

/-- R96: 1 if the word is zero, else 0. -/
def logicalNot (v : Word) : Word := if v = 0x0000#16 then 0x0001#16 else 0x0000#16

/-- R97: the logical right shift by one. -/
def shiftRightOne (v : Word) : Word := v >>> 1

/-! ### The two shapes -/

/-- `x[rY] <- f(x[rA])`. -/
def aluUnary (f : Word → Word) (y a : Reg) (s : State) : State := putResult y (f (readReg a s)) s

/-- `x[rY] <- f(x[rA], x[rB])`. -/
def aluBinary (f : Word → Word → Word) (y a b : Reg) (s : State) : State :=
  putResult y (f (readReg a s) (readReg b s)) s

/-! ### The meanings -/

/-- R90. -/
def execOr (y a b : Reg) (s : State) : Result := .next (aluBinary (fun u v => u ||| v) y a b s)

/-- R91. -/
def execNot (y a : Reg) (s : State) : Result := .next (aluUnary (fun v => ~~~v) y a s)

/-- R92. -/
def execAnd (y a b : Reg) (s : State) : Result := .next (aluBinary (fun u v => u &&& v) y a b s)

/-- R93. -/
def execXor (y a b : Reg) (s : State) : Result := .next (aluBinary (fun u v => u ^^^ v) y a b s)

/-- R94, modulo 2^16, the carry discarded (R98). -/
def execAdd (y a b : Reg) (s : State) : Result := .next (aluBinary (fun u v => u + v) y a b s)

/-- R95: `x[rA] - x[rB]` modulo 2^16, the borrow discarded (R98). -/
def execSub (y a b : Reg) (s : State) : Result := .next (aluBinary (fun u v => u - v) y a b s)

/-- R96. -/
def execLnot (y a : Reg) (s : State) : Result := .next (aluUnary logicalNot y a s)

/-- R97. -/
def execShr (y a : Reg) (s : State) : Result := .next (aluUnary shiftRightOne y a s)

end Sys2Proof.Machine
end

