-- ==== Sys2Proof/Machine/Flags.lean ====
section
/-! DEFINITION. The flags that instructions compute. The core keeps no condition codes (10_state.md R27): what
is computed here is used at once, by Pop (R64, R111) and by the Conditional Jump (R121). The open parameters
enter the meanings here and nowhere else. -/

namespace Sys2Proof.Machine

/-- R6, R64: the flag of a Pop word (log 4). -/
def popFlag (w : Word) : Bool := Config.popFlag w

/-- R6, R121: the mask of conditions 2 and 3 (log 5). -/
def signMask : Word := Config.signMask

/-- R6, R121: conditions 4 to 15 (log 6). -/
def cjExtTaken (c : Nibble) (b : Word) : Bool := Config.cjExtTaken c b

/-- R121: "a designated 'sign' bit of reg[rB] is set", for a given mask; any bit of the mask counts (log 5). -/
def signSet (mask b : Word) : Bool := (b &&& mask) != 0x0000#16

/-- R121: `cond(c, b)`, for given values of the open parameters. -/
def jumpCondWith (mask : Word) (ext : Nibble → Word → Bool) (c : Nibble) (b : Word) : Bool :=
  match c.toNat with
  | 0 => b == 0x0000#16
  | 1 => b != 0x0000#16
  | 2 => signSet mask b
  | 3 => b != 0x0000#16 && !signSet mask b
  | _ => ext c b

/-- R121: `cond(c, b)`. -/
def jumpCond (c : Nibble) (b : Word) : Bool := jumpCondWith signMask cjExtTaken c b

end Sys2Proof.Machine
end

