-- ==== Sys2Proof/Machine/Control.lean ====
section
/-! DEFINITION. The Unconditional and the Conditional Jump (43_control_transfer.md). There is no delay slot and no
link register (R123), and no halt (R124). -/

namespace Sys2Proof.Machine

/-- R120: pc is replaced, not incremented. -/
def execJmp (a : Reg) (s : State) : Result := .next (setPc (readReg a s) s)

/-- R122, condition 0. -/
def execJz (a b : Reg) (s : State) : Result := .next (branch (jumpCond 0 (readReg b s)) a s)

/-- R122, condition 1. -/
def execJnz (a b : Reg) (s : State) : Result := .next (branch (jumpCond 1 (readReg b s)) a s)

/-- R122, condition 2. -/
def execJneg (a b : Reg) (s : State) : Result := .next (branch (jumpCond 2 (readReg b s)) a s)

/-- R122, condition 3. -/
def execJpos (a b : Reg) (s : State) : Result := .next (branch (jumpCond 3 (readReg b s)) a s)

/-- R122, conditions 4 to 7 (D3; log 6). -/
def execJcMid (c : Nibble) (a b : Reg) (s : State) : Result := .next (branch (jumpCond c (readReg b s)) a s)

/-- R122, conditions 8 to 15 (D3; log 6). -/
def execJcHigh (c : Nibble) (a b : Reg) (s : State) : Result := .next (branch (jumpCond c (readReg b s)) a s)

end Sys2Proof.Machine
end

