-- ==== Sys2Proof/Machine/Operands.lean ====
section
/-! DEFINITION. The operand forms of the core (30_encoding.md R63, R66). An operand is a general register, the
literal of Load Immediate, pc, a data word addressed by a register, or the top slot of the stack; there is no other
addressing mode. Register operands are `readReg`, the literal is an argument of its instruction. -/

namespace Sys2Proof.Machine

/-- R83: the data word at the address a register holds. -/
def loadIndirect (a : Reg) (s : State) : Word := memRead .D (readReg a s) s

/-- R82: store at the data address a register holds. -/
def storeAddress (b : Reg) (s : State) : Word := readReg b s

/-- R110 with flag 0: the pushed value is a register. -/
def pushedReg (a : Reg) (s : State) : Word := readReg a s

/-- R110 with flag 1: the pushed value is pc, the address of the Push itself, since pc is updated only after execute
(R22, R156; log 20). -/
def pushedPc (s : State) : Word := s.pc

/-- R24, R110: the slot that Push writes, the next free one. -/
def pushSlot (s : State) : Word := s.rsp

/-- R24, R111: the slot that Pop reads, `rsp - 1` modulo 2^16. -/
def topSlot (s : State) : Word := s.rsp - 1

end Sys2Proof.Machine
end

