-- ==== Sys2Proof/Machine/DataMovement.lean ====
section
/-! DEFINITION. Move, Load Immediate, Store, Load (40_data_movement.md). -/

namespace Sys2Proof.Machine

/-- R80. -/
def execMov (y a : Reg) (s : State) : Result := .next (putResult y (readReg a s) s)

/-- R81; `imm` is the word at pc + 1 of bank I, read by the fetch (log 9). -/
def execLdi (y : Reg) (imm : Word) (s : State) : Result := .next (advance 2 (writeReg y imm s))

/-- R82. -/
def execSt (a b : Reg) (s : State) : Result :=
  let s' := memWrite .D (storeAddress b s) (readReg a s) s
  .next (advance 1 (markData (readReg b s') s'))

/-- R83: `mar` is read from `x[rB]` after the write to `x[rY]` (D4; log 8). -/
def execLd (y a b : Reg) (s : State) : Result :=
  let s' := writeReg y (loadIndirect a s) s
  .next (advance 1 (markData (readReg b s') s'))

end Sys2Proof.Machine
end

