-- ==== Sys2Proof/Machine/Stack.lean ====
section
/-! DEFINITION. Push and Pop (42_stack.md). -/

namespace Sys2Proof.Machine

/-- R110, for a given pushed value: write the slot, then increment `rsp`. -/
def pushWord (v : Word) (s : State) : State :=
  let s' := setRsp (s.rsp + 1) (memWrite .S (pushSlot s) v s)
  advance 1 (markStack s')

/-- R111, for a given value of the flag: decrement `rsp`, read the slot, replace pc or write the register, and
then advance pc by 1 whichever it was. The slot is not cleared. -/
def popWord (flag : Bool) (y : Reg) (s : State) : State :=
  let s' := setRsp (topSlot s) s
  let v := memRead .S s'.rsp s'
  let s'' := if flag then setPc v s' else writeReg y v s'
  advance 1 (markStack s'')

/-- R110 with flag 0. -/
def execPush (a : Reg) (s : State) : Result := .next (pushWord (pushedReg a s) s)

/-- R110 with flag 1. -/
def execPushPc (s : State) : Result := .next (pushWord (pushedPc s) s)

/-- R111; the flag is `POP_FLAG` of the instruction's own word. -/
def execPop (y : Reg) (mid : BitVec 8) (s : State) : Result :=
  .next (popWord (popFlag (popInstrWord y mid)) y s)

end Sys2Proof.Machine
end

