-- ==== Sys2Proof/Machine/Dispatch.lean ====
section
/-! DEFINITION. The dispatch of R65: one arm per row of the opcode table, each one call of its meaning. -/

namespace Sys2Proof.Machine

def exec (i : Instr) (s : State) : Host.Outcome State Fault Refusal :=
  match i with
  | .mov rY rA => Sys2Proof.Machine.execMov rY rA s
  | .ldi rY imm => Sys2Proof.Machine.execLdi rY imm s
  | .st rA rB => Sys2Proof.Machine.execSt rA rB s
  | .ld rY rA rB => Sys2Proof.Machine.execLd rY rA rB s
  | .bitOr rY rA rB => Sys2Proof.Machine.execOr rY rA rB s
  | .bitNot rY rA => Sys2Proof.Machine.execNot rY rA s
  | .bitAnd rY rA rB => Sys2Proof.Machine.execAnd rY rA rB s
  | .bitXor rY rA rB => Sys2Proof.Machine.execXor rY rA rB s
  | .add rY rA rB => Sys2Proof.Machine.execAdd rY rA rB s
  | .sub rY rA rB => Sys2Proof.Machine.execSub rY rA rB s
  | .lnot rY rA => Sys2Proof.Machine.execLnot rY rA s
  | .shr rY rA => Sys2Proof.Machine.execShr rY rA s
  | .push rA => Sys2Proof.Machine.execPush rA s
  | .pushPc => Sys2Proof.Machine.execPushPc s
  | .pop rY mid => Sys2Proof.Machine.execPop rY mid s
  | .jmp rA => Sys2Proof.Machine.execJmp rA s
  | .jz rA rB => Sys2Proof.Machine.execJz rA rB s
  | .jnz rA rB => Sys2Proof.Machine.execJnz rA rB s
  | .jneg rA rB => Sys2Proof.Machine.execJneg rA rB s
  | .jpos rA rB => Sys2Proof.Machine.execJpos rA rB s
  | .jcMid c rA rB => Sys2Proof.Machine.execJcMid c rA rB s
  | .jcHigh c rA rB => Sys2Proof.Machine.execJcHigh c rA rB s

end Sys2Proof.Machine
end

