-- ==== Sys2Proof/Machine/Step.lean ====
section
/-! DEFINITION. One step (70_reset_and_hazards.md R156), and the placing of an instruction where the next step
fetches it. -/

namespace Sys2Proof.Machine

/-- R156: fetch, decode, execute, advance; the advance is part of each meaning (R23). -/
def step (s : State) : Host.Outcome State Fault Refusal := exec (fetchInstr s) s

/-- `s` with an instruction's bits stored at pc and pc + 1 of bank I, as the loader would have left them there
(R152; log 10, 11): the first word is bits 15:0 of `w`, the second bits 31:16, and bits from `nbits` up are 0. -/
def State.withFetchWord (s : State) (nbits w : Nat) : State :=
  let bits := w % 2 ^ nbits
  memWrite .I (s.pc + 1) (BitVec.ofNat 16 (bits / 2 ^ 16)) (memWrite .I s.pc (BitVec.ofNat 16 bits) s)

end Sys2Proof.Machine
end

