-- ==== Sys2Proof/Machine/HostPorts.lean ====
section
/-! DEFINITION. The boundary of the core with its host (70_reset_and_hazards.md R150–R160): the load of bank I
before the first step, the step port and the snapshot port. -/

namespace Sys2Proof.Machine

/-! ### The load port -/

/-- What a character is worth as a hexadecimal digit (log 12). -/
def hexDigit (c : Char) : Option Nat :=
  let n := c.toNat
  if 48 ≤ n ∧ n ≤ 57 then some (n - 48)
  else if 65 ≤ n ∧ n ≤ 70 then some (n - 55)
  else if 97 ≤ n ∧ n ≤ 102 then some (n - 87)
  else none

/-- The number that hexadecimal digits write after the digits already read gave `acc`. -/
def hexValueFrom : Nat → List Char → Option Nat
  | acc, [] => some acc
  | acc, c :: cs =>
    match hexDigit c with
    | some d => hexValueFrom (16 * acc + d) cs
    | none => none

/-- R152, R155: the value of a token, none if it is not valid hexadecimal. -/
def tokenValue : List Char → Option Nat
  | [] => none
  | c :: cs => hexValueFrom 0 (c :: cs)

/-- What separates tokens (R152 "whitespace-separated"; log 12). -/
def isSpace (c : Char) : Bool :=
  let n := c.toNat
  decide (n = 32) || decide (9 ≤ n ∧ n ≤ 13)

/-- The tokens of the text, when the characters in `cur`, last first, are already read of the current one. -/
def tokensFrom : List Char → List Char → List (List Char)
  | cur, [] => if cur.isEmpty then [] else [cur.reverse]
  | cur, c :: cs =>
    if isSpace c then
      if cur.isEmpty then tokensFrom [] cs else cur.reverse :: tokensFrom [] cs
    else tokensFrom (c :: cur) cs

/-- R152: the tokens of a program file. -/
def tokens (text : List Char) : List (List Char) := tokensFrom [] text

/-- The loader's warnings: the load goes on, or ends early, with the program it has. -/
inductive LoadWarning where
  /-- R153: the value of the token at this address was above 0xFFFF, and 0x0000 stands there. -/
  | valueOutOfRange (address : Nat)
  /-- R154: bank I was full before the input was exhausted; the rest is ignored. -/
  | overflow
  deriving DecidableEq, Repr

/-- The loader's fatal error. -/
inductive LoadFailure where
  /-- R155: the token for this address is not valid hexadecimal (D20; log 14). The warnings given before it are not
  reported with the failure: DESIGN CHOICE (log 27). -/
  | notHexadecimal (address : Nat)
  deriving DecidableEq, Repr

/-- R153: the word that stands for a token's value. -/
def loadedWord (n : Nat) : Word := if 0xFFFF < n then 0x0000#16 else BitVec.ofNat 16 n

/-- R153: the warning that a token's value gives, if any. -/
def loadWarning (address n : Nat) : List LoadWarning :=
  if 0xFFFF < n then [.valueOutOfRange address] else []

/-- R152–R155: load tokens into bank I from address `k` on. A load that succeeds reports its warnings in order; a load
that fails (R155) answers the failure alone. Whether the warnings of R153 that tokens before the failing one gave are
still reported then, the spec does not say: dropping them is the model's DESIGN CHOICE (log 27). -/
def loadFrom : Nat → List (List Char) → Memory → Except LoadFailure (Memory × List LoadWarning)
  | _, [], m => .ok (m, [])
  | k, t :: ts, m =>
    if bankSize ≤ k then .ok (m, [.overflow])
    else
      match tokenValue t with
      | none => .error (.notHexadecimal k)
      | some n =>
        match loadFrom (k + 1) ts (Memory.write m k (loadedWord n)) with
        | .error e => .error e
        | .ok (m', ws) => .ok (m', loadWarning k n ++ ws)

/-- R150, R152: the state from which the first step runs, the reset state with the program in bank I. -/
def boot (text : List Char) : Except LoadFailure (State × List LoadWarning) :=
  match loadFrom 0 (tokens text) State.reset.bankI with
  | .error e => .error e
  | .ok (m, ws) => .ok (setBank .I m State.reset, ws)

/-! ### The step port -/

/-- R157: exactly n steps, in order. -/
def stepMany : Nat → State → Result
  | 0, s => .next s
  | n + 1, s =>
    match step s with
    | .next t => stepMany n t
    | .fault f => .fault f
    | .refused r => .refused r

/-! ### The snapshot port -/

/-- R158: what a snapshot shows. The banks are shown whole (log 15). -/
structure Snapshot where
  x : Vector Word 16
  pc : Word
  rsp : Word
  mar : Word
  bankI : Memory
  bankD : Memory
  bankS : Memory
  dUpd : Bool
  sUpd : Bool
  deriving DecidableEq, Repr

/-- The view of a state. -/
def viewOf (s : State) : Snapshot where
  x := s.x
  pc := s.pc
  rsp := s.rsp
  mar := s.mar
  bankI := s.bankI
  bankD := s.bankD
  bankS := s.bankS
  dUpd := s.dUpd
  sUpd := s.sUpd

/-- R158: both updated flags are cleared; nothing else changes. -/
def clearUpdated (s : State) : State := { s with dUpd := false, sUpd := false }

/-- R158: the view with the flags as they stand, and the state after they are cleared. -/
def snapshot (s : State) : Snapshot × State := (viewOf s, clearUpdated s)

/-! ### A whole run -/

/-- R159: what the host may ask after the load. Stopping is asking nothing more (R160). -/
inductive Request where
  /-- `step(n)`. -/
  | step (n : Nat)
  /-- `snapshot()`. -/
  | snapshot
  deriving DecidableEq, Repr

/-- The state after the host's requests, served in order and each to its end (R46, R157), with the views the host
was given, first one first. -/
def serve : List Request → State → Host.Outcome (State × List Snapshot) Fault Refusal
  | [], s => .next (s, [])
  | .step n :: rs, s =>
    match stepMany n s with
    | .next t => serve rs t
    | .fault f => .fault f
    | .refused r => .refused r
  | .snapshot :: rs, s =>
    match serve rs (snapshot s).2 with
    | .next (t, views) => .next (t, (snapshot s).1 :: views)
    | .fault f => .fault f
    | .refused r => .refused r

/-- R160: a run: reset, load, requests. After a failed load no step is executed (R155). -/
def hostRun (text : List Char) (rs : List Request) :
    Except LoadFailure (Host.Outcome (State × List Snapshot) Fault Refusal) :=
  match boot text with
  | .error e => .error e
  | .ok (s, _) => .ok (serve rs s)

end Sys2Proof.Machine
end

