-- ==== Sys2Proof/Safety.lean ====
section
/-! DEFINITION. The terms in which claims about the machine are stated: the canonical form of a state, what an
instruction wrote and what it kept, a safe run, and what a run wrote to a bank. -/

namespace Sys2Proof.Machine

/-! ### The invariant -/

/-- Every bank is in its canonical form: equal contents are then equal data. -/
def State.wf (s : State) : Bool := s.bankI.wf && s.bankD.wf && s.bankS.wf

/-! ### Frames: what is the same in two states -/

/-- Every general register is as it was. -/
def RegsKept (s t : State) : Prop := ∀ r, readReg r t = readReg r s

/-- Register `y` holds `v`, and every other register is as it was. -/
def RegWritten (y : Reg) (v : Word) (s t : State) : Prop := ∀ r, readReg r t = if r = y then v else readReg r s

/-- Every word of the bank reads as it did. -/
def BankKept (B : Bank) (s t : State) : Prop := ∀ a, memRead B a t = memRead B a s

/-- Address `a` of the bank reads `v`, and every other word of it reads as it did. -/
def BankWritten (B : Bank) (a v : Word) (s t : State) : Prop :=
  ∀ a', memRead B a' t = if a' = a then v else memRead B a' s

/-- `mar` and both updated flags are as they were. -/
def MarksKept (s t : State) : Prop := t.mar = s.mar ∧ t.dUpd = s.dUpd ∧ t.sUpd = s.sUpd

/-- All three banks read as they did. -/
def BanksKept (s t : State) : Prop := BankKept .I s t ∧ BankKept .D s t ∧ BankKept .S s t

/-- Register `y` got `v` and pc is `target`; nothing else changed. -/
def OnlyReg (y : Reg) (v target : Word) (s t : State) : Prop :=
  RegWritten y v s t ∧ t.pc = target ∧ t.rsp = s.rsp ∧ MarksKept s t ∧ BanksKept s t

/-- pc is `target`; nothing else changed. -/
def OnlyPc (target : Word) (s t : State) : Prop :=
  RegsKept s t ∧ t.pc = target ∧ t.rsp = s.rsp ∧ MarksKept s t ∧ BanksKept s t

/-- R31: two states that a program cannot tell apart: all but `mar` and the updated flags is the same. -/
def SameVisible (s t : State) : Prop :=
  t.x = s.x ∧ t.pc = s.pc ∧ t.rsp = s.rsp ∧ t.bankI = s.bankI ∧ t.bankD = s.bankD ∧ t.bankS = s.bankS

/-! ### Runs -/

/-- A run of n steps is safe if it answers a next state. -/
def SafeRun (n : Nat) (s : State) : Prop := ∃ t, stepMany n s = .next t

/-- The address and the word that the step from `s` writes to the bank, if it writes to it (R42): Store to D,
Push to S, nothing to I. -/
def writeOf (B : Bank) (s : State) : Option (Word × Word) :=
  match B, fetchInstr s with
  | .D, .st a b => some (readReg b s, readReg a s)
  | .S, .push a => some (s.rsp, readReg a s)
  | .S, .pushPc => some (s.rsp, s.pc)
  | _, _ => none

/-- The word that the step from `s` writes to that address of the bank, if it does. -/
def wordWritten (B : Bank) (a : Word) (s : State) : Option Word :=
  match writeOf B s with
  | some (a', v) => if a' = a then some v else none
  | none => none

/-- The word that the latest of the n steps from `s` that wrote to that address of the bank wrote there. -/
def latestWritten (B : Bank) (a : Word) : Nat → State → Option Word
  | 0, _ => none
  | n + 1, s =>
    match step s with
    | .next t =>
      match latestWritten B a n t with
      | some v => some v
      | none => wordWritten B a s
    | .fault _ => none
    | .refused _ => none

/-- Whether one of the n steps from `s` executes an instruction with one of these opcodes. -/
def executes (ops : List Nibble) : Nat → State → Bool
  | 0, _ => false
  | n + 1, s =>
    ops.contains (opOf (fetchWord s)) ||
      match step s with
      | .next t => executes ops n t
      | .fault _ => false
      | .refused _ => false

end Sys2Proof.Machine
end

