-- ==== Sys2Proof/Certificates/Slice0/Obligations.lean ====
section
/-! DEFINITION. The statements about the model, for the provers. `packWord op a b y` is the word
`(op << 12) | (rA << 8) | (rB << 4) | rY` of R60, and `regOf n` the register a field of value n names (R63). -/

open Sys2Proof Sys2Proof.Machine

/-! ### Encoding -/

/-- Words of spec/95_test_vectors.md, one or more of each family, decode to the instruction they stand for. -/
def Obligations.SpecWordsDecode : Prop :=
  decode [0x0103] = .ok (.mov 3 1, []) ∧ decode [0x1007, 0xABCD] = .ok (.ldi 7 0xABCD, []) ∧
  decode [0x2230] = .ok (.st 2 3, []) ∧ decode [0x3154] = .ok (.ld 4 1 5, []) ∧
  decode [0x8123] = .ok (.add 3 1 2, []) ∧ decode [0x9213] = .ok (.sub 3 2 1, []) ∧
  decode [0xB123] = .ok (.shr 3 1, []) ∧ decode [0xC100] = .ok (.push 1, []) ∧
  decode [0xC580] = .ok (.pushPc, []) ∧ decode [0xD006] = .ok (.pop 6 0, []) ∧
  decode [0xE1FF] = .ok (.jmp 1, []) ∧ decode [0xF122] = .ok (.jneg 1 2, []) ∧
  decode [0xF12C] = .ok (.jcHigh 12 1 2, [])

/-- Headline: for every well-formed instruction, decoding its encoding gives it back, with the words that follow. -/
def Obligations.EncodedInstructionDecodesToItself : Prop :=
  ∀ (i : Instr) (rest : List Word), i.wellFormed = true → decode (encode i ++ rest) = .ok (i, rest)

/-- R69: encoding what a word decodes to gives the word back with its ignored bits 0, and the literal if it has one. For
a Pop word the statement says that bits 11:4 are kept: R66 lists them as ignored operands and R69 (the spec's own
decision D10) would write them as 0, and keeping them, because `POP_FLAG` may read them (R67), is the model's reading
(log 21). -/
def Obligations.ReencodingClearsIgnoredBits : Prop :=
  ∀ w lit : Word, encode (decodeWords w lit) = (w &&& usedBits w) :: (if opOf w = 0x1 then [lit] else [])

/-- R66, R67: two words that agree on the bits the first one's opcode uses are the same instruction. All bits of a Pop
word count as used, because `POP_FLAG` may read any of them: the model's reading (log 21). -/
def Obligations.IgnoredBitsDoNotMatter : Prop :=
  ∀ w w' lit : Word, w &&& usedBits w = w' &&& usedBits w → decodeWords w' lit = decodeWords w lit

/-- R65: every word fits exactly one row of the opcode table, decodes to an instruction of that row with the opcode
the word has, and that instruction is well-formed. -/
def Obligations.EveryWordFitsOneRow : Prop :=
  ∀ w lit : Word,
    (opcodeTable.filter (fun r => r.fits w)).map OpcodeRow.mnemonic = [(decodeWords w lit).mnemonic] ∧
    (decodeWords w lit).opcode = opOf w ∧ (decodeWords w lit).wellFormed = true

/-- R61, R62: Load Immediate takes two words, every other opcode one, and the opcode alone tells. -/
def Obligations.LengthFromOpcodeAlone : Prop :=
  ∀ (w next : Word) (rest : List Word),
    (opOf w = 0x1 → decode (w :: next :: rest) = .ok (decodeWords w next, rest)) ∧
    (opOf w ≠ 0x1 → decode (w :: next :: rest) = .ok (decodeWords w 0, next :: rest)) ∧
    (decodeWords w next).length = if opOf w = 0x1 then 2 else 1

/-- The host's interface (log 11): an instruction's words, numbered as the opcode table numbers them, decode to it, and
placed with `withFetchWord` they are what the next step runs. -/
def Obligations.PlacedInstructionRuns : Prop :=
  ∀ (i : Instr) (s : State) (n : Nat), i.wellFormed = true → 16 * i.length ≤ n →
    let w := (encodeFirst i).toNat + 65536 * ((encode i)[1]?.getD 0).toNat
    decodeTableWord n w = some i ∧ step (s.withFetchWord n w) = exec i (s.withFetchWord n w)

/-! ### One step -/

/-- R156: when the words at pc and pc + 1 of bank I decode to an instruction, the step is that instruction executed at
that state, pc still being the address of its first word. -/
def Obligations.StepRunsDecodedInstruction : Prop :=
  ∀ (s : State) (i : Instr) (rest : List Word),
    (decode [memRead .I s.pc s, memRead .I (s.pc + 1) s] = .ok (i, rest) → step s = exec i s) ∧
    (decode (fetchWords s) = .ok (i, rest) → rest = [] ∧ step s = exec i s)

/-- R11: a step executes the one instruction at pc and has a successor, whatever the word, and so has every
instruction at every state. -/
def Obligations.EveryStepHasSuccessor : Prop :=
  (∀ s : State, step s = exec (decodeWords (memRead .I s.pc s) (memRead .I (s.pc + 1) s)) s ∧
    ∃ t, step s = .next t) ∧
  ∀ (i : Instr) (s : State), ∃ t, exec i s = .next t

/-- R157: `step(0)` changes nothing, `step(n + 1)` is n steps and then one more, and none of them fails. -/
def Obligations.StepPortRunsExactlyN : Prop :=
  ∀ s : State, stepMany 0 s = .next s ∧
    ∀ n, ∃ t, stepMany n s = .next t ∧ stepMany (n + 1) s = step t ∧ Host.Core.run core n s = .next t

/-! ### Data movement -/

/-- R80 MOV: `x[rY]` gets `x[rA]`, pc advances by 1, nothing else changes; `rB` is ignored. -/
def Obligations.MovCopiesRegister : Prop :=
  (∀ (a b y : Nibble) (lit : Word), decodeWords (packWord 0x0 a b y) lit = .mov (regOf y) (regOf a)) ∧
  ∀ (y a : Reg) (s : State), ∃ t, exec (.mov y a) s = .next t ∧ OnlyReg y (readReg a s) (s.pc + 1) s t

/-- R81 LDI: `x[rY]` gets the word at `(pc + 1) mod 2^16` of bank I and pc advances by 2; nothing else changes; `rA`, `rB` are
ignored. The address at pc = 0xFFFF is the spec's decision D7 (log 7). -/
def Obligations.LdiLoadsNextWord : Prop :=
  (∀ (s : State) (a b y : Nibble), memRead .I s.pc s = packWord 0x1 a b y →
    step s = exec (.ldi (regOf y) (memRead .I (s.pc + 1) s)) s) ∧
  ∀ (y : Reg) (imm : Word) (s : State), ∃ t, exec (.ldi y imm) s = .next t ∧ OnlyReg y imm (s.pc + 2) s t

/-- R82 ST: the data word at `x[rB]` gets `x[rA]`, `mar` gets `x[rB]`, `dUpd` is set, pc advances by 1; nothing else changes,
in particular no register and no other word of any bank; `rY` is ignored. -/
def Obligations.StStoresWord : Prop :=
  (∀ (a b y : Nibble) (lit : Word), decodeWords (packWord 0x2 a b y) lit = .st (regOf a) (regOf b)) ∧
  ∀ (a b : Reg) (s : State), ∃ t, exec (.st a b) s = .next t ∧ storeAddress b s = readReg b s ∧
    BankWritten .D (storeAddress b s) (readReg a s) s t ∧ BankKept .I s t ∧ BankKept .S s t ∧
    t.mar = readReg b s ∧ t.dUpd = true ∧ t.sUpd = s.sUpd ∧ t.pc = s.pc + 1 ∧ t.rsp = s.rsp ∧ RegsKept s t

/-- R83 LD: `x[rY]` gets the data word at `x[rA]`, `mar` gets `x[rB]`, `dUpd` is set, pc advances by 1; nothing else changes. That
`mar` gets the loaded word when `rB = rY` is the spec's decision D4 (log 8). -/
def Obligations.LdLoadsWordAndSetsMar : Prop :=
  (∀ (a b y : Nibble) (lit : Word), decodeWords (packWord 0x3 a b y) lit = .ld (regOf y) (regOf a) (regOf b)) ∧
  ∀ (y a b : Reg) (s : State), ∃ t, exec (.ld y a b) s = .next t ∧
    RegWritten y (memRead .D (readReg a s) s) s t ∧
    t.mar = (if b = y then memRead .D (readReg a s) s else readReg b s) ∧ t.dUpd = true ∧ t.sUpd = s.sUpd ∧
    t.pc = s.pc + 1 ∧ t.rsp = s.rsp ∧ BanksKept s t

/-! ### ALU -/

/-- R90, R92, R93: OR, AND and XOR compute each bit of `x[rY]` from that bit of `x[rA]` and `x[rB]`, and change nothing else
but pc, which advances by 1. -/
def Obligations.BitwiseOperations : Prop :=
  (∀ (a b y : Nibble) (lit : Word),
    decodeWords (packWord 0x4 a b y) lit = .bitOr (regOf y) (regOf a) (regOf b) ∧
    decodeWords (packWord 0x6 a b y) lit = .bitAnd (regOf y) (regOf a) (regOf b) ∧
    decodeWords (packWord 0x7 a b y) lit = .bitXor (regOf y) (regOf a) (regOf b)) ∧
  ∀ (y a b : Reg) (s : State),
    (∃ t v, exec (.bitOr y a b) s = .next t ∧ OnlyReg y v (s.pc + 1) s t ∧
      ∀ k, v.getLsbD k = ((readReg a s).getLsbD k || (readReg b s).getLsbD k)) ∧
    (∃ t v, exec (.bitAnd y a b) s = .next t ∧ OnlyReg y v (s.pc + 1) s t ∧
      ∀ k, v.getLsbD k = ((readReg a s).getLsbD k && (readReg b s).getLsbD k)) ∧
    (∃ t v, exec (.bitXor y a b) s = .next t ∧ OnlyReg y v (s.pc + 1) s t ∧
      ∀ k, v.getLsbD k = ((readReg a s).getLsbD k ^^ (readReg b s).getLsbD k))

/-- R94, R95: ADD and SUB compute the sum and the difference modulo 2^16, with nothing recorded of the carry or the
borrow, and change nothing else but pc, which advances by 1. -/
def Obligations.AddAndSubtractWrap : Prop :=
  (∀ (a b y : Nibble) (lit : Word),
    decodeWords (packWord 0x8 a b y) lit = .add (regOf y) (regOf a) (regOf b) ∧
    decodeWords (packWord 0x9 a b y) lit = .sub (regOf y) (regOf a) (regOf b)) ∧
  ∀ (y a b : Reg) (s : State),
    (∃ t v, exec (.add y a b) s = .next t ∧ OnlyReg y v (s.pc + 1) s t ∧
      v.toNat = ((readReg a s).toNat + (readReg b s).toNat) % 65536) ∧
    (∃ t v, exec (.sub y a b) s = .next t ∧ OnlyReg y v (s.pc + 1) s t ∧
      v.toNat = ((readReg a s).toNat + 65536 - (readReg b s).toNat) % 65536)

/-- R91, R96, R97: NOT is `0xFFFF ^ x[rA]`, LNOT is 1 for zero and 0 for anything else, SHR drops bit 0 and puts 0 in bit
15; each changes nothing else but pc, which advances by 1; `rB` is ignored. -/
def Obligations.UnaryOperations : Prop :=
  (∀ (a b y : Nibble) (lit : Word),
    decodeWords (packWord 0x5 a b y) lit = .bitNot (regOf y) (regOf a) ∧
    decodeWords (packWord 0xA a b y) lit = .lnot (regOf y) (regOf a) ∧
    decodeWords (packWord 0xB a b y) lit = .shr (regOf y) (regOf a)) ∧
  ∀ (y a : Reg) (s : State),
    (∃ t v, exec (.bitNot y a) s = .next t ∧ OnlyReg y v (s.pc + 1) s t ∧ v = 0xFFFF ^^^ readReg a s) ∧
    (∃ t v, exec (.lnot y a) s = .next t ∧ OnlyReg y v (s.pc + 1) s t ∧
      v.toNat = if (readReg a s).toNat = 0 then 1 else 0) ∧
    (∃ t v, exec (.shr y a) s = .next t ∧ OnlyReg y v (s.pc + 1) s t ∧ v.toNat = (readReg a s).toNat / 2)

/-! ### Stack -/

/-- R110 PUSH: slot `rsp` of bank S gets `x[rA]`, or pc if bit 7 of the word is set, then `rsp` advances by 1 modulo 2^16,
`sUpd` is set and pc advances by 1; nothing else changes. That pc is the Push's own address is the spec's
inference from R156 (log 20). -/
def Obligations.PushWritesNextSlot : Prop :=
  (∀ (a b y : Nibble) (lit : Word),
    decodeWords (packWord 0xC a b y) lit = if b.getLsbD 3 then .pushPc else .push (regOf a)) ∧
  ∀ (i : Instr) (v : Word) (s : State), ((∃ a, i = .push a ∧ v = readReg a s) ∨ (i = .pushPc ∧ v = s.pc)) →
    ∃ t, exec i s = .next t ∧ pushSlot s = s.rsp ∧ BankWritten .S (pushSlot s) v s t ∧
      t.rsp.toNat = (s.rsp.toNat + 1) % 65536 ∧ t.sUpd = true ∧ t.pc = s.pc + 1 ∧
      t.mar = s.mar ∧ t.dUpd = s.dUpd ∧ RegsKept s t ∧ BankKept .I s t ∧ BankKept .D s t

/-- R111 POP: `rsp` goes back by 1 modulo 2^16, and the word of that slot goes to `x[rY]`, or to pc if `POP_FLAG` of the
instruction's word is true; then pc advances by 1 in either case, and `sUpd` is set. The slot and every other word keep
their values. `POP_FLAG` is a free value (log 4): the statement holds whatever it is. -/
def Obligations.PopReadsTopSlot : Prop :=
  (∀ (a b y : Nibble) (lit : Word),
    decodeWords (packWord 0xD a b y) lit = .pop (regOf y) (a ++ b) ∧
    popInstrWord (regOf y) (a ++ b) = packWord 0xD a b y) ∧
  ∀ (y : Reg) (mid : BitVec 8) (s : State), ∃ t, exec (.pop y mid) s = .next t ∧
    t.rsp.toNat = (s.rsp.toNat + 65535) % 65536 ∧
    (∀ r, readReg r t =
      if popFlag (popInstrWord y mid) = false ∧ r = y then memRead .S t.rsp s else readReg r s) ∧
    t.pc = (if popFlag (popInstrWord y mid) then memRead .S t.rsp s else s.pc) + 1 ∧
    t.sUpd = true ∧ t.mar = s.mar ∧ t.dUpd = s.dUpd ∧ BanksKept s t

/-- R112: Push of `x[rA]` followed by a Pop: `rsp` is back at its value, the slot holds the pushed word, and the Pop's
register gets it unless the Pop's `POP_FLAG` (a free value, log 4) is true. -/
def Obligations.PushThenPopRestores : Prop :=
  ∀ (a y : Reg) (mid : BitVec 8) (s : State), ∃ t u,
    exec (.push a) s = .next t ∧ exec (.pop y mid) t = .next u ∧ u.rsp = s.rsp ∧
    memRead .S s.rsp u = readReg a s ∧
    readReg y u = if popFlag (popInstrWord y mid) then readReg y s else readReg a s

/-- R113: whatever happened since a `PUSH PC` at address p, a Pop that pops that slot, still holding what was pushed,
goes on at p + 1 if its `POP_FLAG` (a free value, log 4) is true, and after itself otherwise. That it is p + 1 rests on
`PUSH PC` pushing its own address p, which R110 and R113 mark as derived: an inference (log 20). -/
def Obligations.PushPcThenPopReturns : Prop :=
  ∀ (y : Reg) (mid : BitVec 8) (s t u : State), exec .pushPc s = .next t → u.rsp = t.rsp →
    memRead .S s.rsp u = memRead .S s.rsp t →
    ∃ v, exec (.pop y mid) u = .next v ∧ v.rsp = s.rsp ∧
      v.pc = if popFlag (popInstrWord y mid) then s.pc + 1 else u.pc + 1

/-! ### Control transfer -/

/-- R120 JMP: pc is `x[rA]`, with no increment; nothing else changes; `rB`, `rY` are ignored. And a jump whose target
is its own address executes for ever with no change at all. -/
def Obligations.JmpReplacesPc : Prop :=
  (∀ (a b y : Nibble) (lit : Word), decodeWords (packWord 0xE a b y) lit = .jmp (regOf a)) ∧
  (∀ (a : Reg) (s : State), ∃ t, exec (.jmp a) s = .next t ∧ OnlyPc (readReg a s) s t) ∧
  ∀ (a b y : Nibble) (s : State), memRead .I s.pc s = packWord 0xE a b y → readReg (regOf a) s = s.pc →
    ∀ n, stepMany n s = .next s

/-- R121, R122, conditions 0 and 1: JZ is taken exactly if `x[rB]` is 0, JNZ exactly if it is not. Taken: pc is `x[rA]`;
not taken: pc advances by 1; nothing else changes. -/
def Obligations.ZeroTestJumps : Prop :=
  (∀ (a b : Nibble) (lit : Word),
    decodeWords (packWord 0xF a b 0) lit = .jz (regOf a) (regOf b) ∧
    decodeWords (packWord 0xF a b 1) lit = .jnz (regOf a) (regOf b)) ∧
  ∀ (a b : Reg) (s : State),
    (∃ t, exec (.jz a b) s = .next t ∧
      OnlyPc (if (readReg b s).toNat = 0 then readReg a s else s.pc + 1) s t) ∧
    (∃ t, exec (.jnz a b) s = .next t ∧
      OnlyPc (if (readReg b s).toNat = 0 then s.pc + 1 else readReg a s) s t)

/-- R121, R122, conditions 2 and 3: JNEG is taken exactly if `x[rB] & SIGN_MASK` is not 0, JPOS exactly if it is 0 and
`x[rB]` is not. `SIGN_MASK` is a free value other than 0x8000 (D2; log 5). -/
def Obligations.SignTestJumps : Prop :=
  (∀ (a b : Nibble) (lit : Word),
    decodeWords (packWord 0xF a b 2) lit = .jneg (regOf a) (regOf b) ∧
    decodeWords (packWord 0xF a b 3) lit = .jpos (regOf a) (regOf b)) ∧
  ∀ (a b : Reg) (s : State),
    (∃ t, exec (.jneg a b) s = .next t ∧
      OnlyPc (if readReg b s &&& signMask = 0 then s.pc + 1 else readReg a s) s t) ∧
    (∃ t, exec (.jpos a b) s = .next t ∧
      OnlyPc (if readReg b s ≠ 0 ∧ readReg b s &&& signMask = 0 then readReg a s else s.pc + 1) s t)

/-- R121, R122, conditions 4 to 15: taken exactly as `CJ_EXT_TAKEN` (a free value, D3; log 6) says of the condition and
`x[rB]`. That only "taken" and "not taken" are possible is the spec's own choice D3. -/
def Obligations.ExtendedConditionJumps : Prop :=
  (∀ (a b c : Nibble) (lit : Word),
    (4 ≤ c.toNat → c.toNat ≤ 7 → decodeWords (packWord 0xF a b c) lit = .jcMid c (regOf a) (regOf b)) ∧
    (8 ≤ c.toNat → decodeWords (packWord 0xF a b c) lit = .jcHigh c (regOf a) (regOf b))) ∧
  ∀ (i : Instr) (c : Nibble) (a b : Reg) (s : State), (i = .jcMid c a b ∨ i = .jcHigh c a b) →
    i.wellFormed = true → ∃ t, exec i s = .next t ∧
      OnlyPc (if cjExtTaken c (readReg b s) then readReg a s else s.pc + 1) s t

/-- R121: what follows for the sign test whatever the mask. With bit 15 not in the mask, 0x8000 satisfies condition 3
and not condition 2; with an empty mask, condition 2 never holds and condition 3 is condition 1; and the
model's mask is never 0x8000. -/
def Obligations.SignTestIsNotBit15 : Prop :=
  (∀ (mask : Word) (ext : Nibble → Word → Bool), mask.getLsbD 15 = false →
    jumpCondWith mask ext 2 0x8000 = false ∧ jumpCondWith mask ext 3 0x8000 = true) ∧
  (∀ (ext : Nibble → Word → Bool) (b : Word),
    jumpCondWith 0 ext 2 b = false ∧ jumpCondWith 0 ext 3 b = jumpCondWith 0 ext 1 b) ∧
  signMask ≠ 0x8000

/-! ### Whole-machine rules -/

/-- R23: how every opcode changes pc, modulo 2^16. The flag of Pop and the conditions 2 to 15 rest on free values (D1, D2,
D3; log 4, 5, 6), and that conditions 4 to 15 have only the outcomes "taken" and "not taken" is the spec's own choice
D3 (log 6). -/
def Obligations.PcUpdatePerOpcode : Prop :=
  ∀ s : State, ∃ t, step s = .next t ∧
    let w := memRead .I s.pc s
    let a := readReg (regOf (fieldA w)) s
    let b := readReg (regOf (fieldB w)) s
    t.pc.toNat =
      if opOf w = 0x1 then (s.pc.toNat + 2) % 65536
      else if opOf w = 0xD ∧ popFlag w = true then ((memRead .S (s.rsp - 1) s).toNat + 1) % 65536
      else if opOf w = 0xE then a.toNat
      else if opOf w = 0xF ∧ jumpCond (fieldY w) b = true then a.toNat
      else (s.pc.toNat + 1) % 65536

/-- R28, column "written by", with R24 and R42: a step changes a piece of state only if its opcode is one that the table
lists for it. At most the register `x[rY]` changes; bank I never does. -/
def Obligations.OnlyListedOpcodesWrite : Prop :=
  ∀ s : State, ∃ t, step s = .next t ∧
    let w := memRead .I s.pc s
    let op := opOf w
    (op ∈ [0x2, 0xC, 0xE, 0xF] → RegsKept s t) ∧
    (∀ r, r ≠ regOf (fieldY w) → readReg r t = readReg r s) ∧
    t.rsp = (if op = 0xC then s.rsp + 1 else if op = 0xD then s.rsp - 1 else s.rsp) ∧
    (op ∉ [0x2, 0x3] → t.mar = s.mar ∧ t.dUpd = s.dUpd) ∧ (op ∉ [0xC, 0xD] → t.sUpd = s.sUpd) ∧
    BankKept .I s t ∧ (op ≠ 0x2 → BankKept .D s t) ∧ (op ≠ 0xC → BankKept .S s t)

/-- R26: from the state a snapshot leaves, after any number of steps `dUpd` is set exactly if a Store or Load was
executed, and `sUpd` exactly if a Push or Pop was. No step clears either. -/
def Obligations.UpdatedFlagsRecordAccesses : Prop :=
  ∀ (n : Nat) (s : State),
    (∃ t, stepMany n (snapshot s).2 = .next t ∧
      t.dUpd = executes [0x2, 0x3] n (snapshot s).2 ∧ t.sUpd = executes [0xC, 0xD] n (snapshot s).2) ∧
    ∃ t, stepMany n s = .next t ∧ (s.dUpd = true → t.dUpd = true) ∧ (s.sUpd = true → t.sUpd = true)

/-- R31, R25, R26: two states that differ only in `mar` and the updated flags run alike: after any number of steps they
still differ in nothing else. -/
def Obligations.ObservationalStateIsHidden : Prop :=
  ∀ (n : Nat) (s s' : State), SameVisible s s' →
    ∃ t t', stepMany n s = .next t ∧ stepMany n s' = .next t' ∧ SameVisible t t'

/-- R50, R46: after any run, every word of every bank reads what the latest write to it in the run wrote (a Store to D, a
Push to S), or what it held before if there was none. -/
def Obligations.ReadsSeeLatestWrite : Prop :=
  ∀ (B : Bank) (a : Word) (n : Nat) (s : State), ∃ t, stepMany n s = .next t ∧
    memRead B a t = (latestWritten B a n s).getD (memRead B a s)

/-- R80, R68: where bank I holds only zeros, n steps add n to pc and change nothing else: the two states are equal. -/
def Obligations.UnloadedMemoryOnlyAdvancesPc : Prop :=
  ∀ (n : Nat) (s : State), (∀ a, memRead .I a s = 0) →
    stepMany n s = .next { s with pc := s.pc + BitVec.ofNat 16 n }

/-- The invariant: a step from a state whose banks are in canonical form leads to such a state. -/
def Obligations.StepKeepsCanonicalBanks : Prop :=
  ∀ s t : State, s.wf = true → step s = .next t → t.wf = true

/-- Two banks in canonical form that read alike at every address are equal. -/
def Obligations.CanonicalBanksAreEqual : Prop :=
  ∀ m m' : Memory, m.wf = true → m'.wf = true →
    (∀ a : Word, Memory.read m a.toNat = Memory.read m' a.toNat) → m = m'

/-! ### Laws the spec states of several instructions -/

/-- R80: a Move of a register to itself changes pc alone, and a Move there and back leaves the source as it was and the
other register equal to it. -/
def Obligations.MoveThereAndBack : Prop :=
  (∀ (r : Reg) (s : State), exec (.mov r r) s = .next { s with pc := s.pc + 1 }) ∧
  ∀ (a b : Reg) (s : State), ∃ t u, exec (.mov b a) s = .next t ∧ exec (.mov a b) t = .next u ∧
    readReg a u = readReg a s ∧ readReg b u = readReg a s

/-- R91, R98: NOT twice gives the word back; subtracting what was added gives it back, through any wrap; and XOR of a
register with itself clears it. -/
def Obligations.AluOperationsUndo : Prop :=
  (∀ (a b c : Reg) (s : State), ∃ t u, exec (.bitNot b a) s = .next t ∧ exec (.bitNot c b) t = .next u ∧
    readReg c u = readReg a s) ∧
  (∀ (a b c d : Reg) (s : State), c ≠ b → ∃ t u, exec (.add c a b) s = .next t ∧ exec (.sub d c b) t = .next u ∧
    readReg d u = readReg a s) ∧
  ∀ (y : Reg) (s : State), ∃ t, exec (.bitXor y y y) s = .next t ∧ readReg y t = 0

/-! ### Reset, load and the host's ports -/

/-- R32, R33: right after reset every register reads 0, pc and rsp are 0, and every word of every bank reads 0. -/
def Obligations.ResetIsZero : Prop :=
  (∀ r, readReg r State.reset = 0) ∧ State.reset.pc = 0 ∧ State.reset.rsp = 0 ∧
    ∀ (B : Bank) (a : Word), memRead B a State.reset = 0

/-- R32: the model's choice where the source states no reset value, the spec's decisions D5 and D6 (log 2, 3). -/
def Obligations.ResetObservationalState : Prop :=
  State.reset.mar = 0 ∧ State.reset.dUpd = false ∧ State.reset.sUpd = false

/-- The invariant holds at reset and of every state a program is loaded into. -/
def Obligations.BootIsCanonical : Prop :=
  State.reset.wf = true ∧ ∀ text s ws, boot text = .ok (s, ws) → s.wf = true

/-- R152, R151: after a load everything but bank I is as at reset, bank I holds what the loader left for the tokens of
the text, and the first step runs the instruction at address 0. What separates tokens is log 12. -/
def Obligations.BootLoadsBankIOnly : Prop :=
  ∀ text s ws, boot text = .ok (s, ws) →
    (∃ m, loadFrom 0 (tokens text) [] = .ok (m, ws) ∧ ∀ a : Word, memRead .I a s = Memory.read m a.toNat) ∧
    s = { State.reset with bankI := s.bankI } ∧ step s = exec (decodeWords (memRead .I 0 s) (memRead .I 1 s)) s

/-- R152, R153, R154: token k goes to I[k]; a value above 0xFFFF leaves 0x0000 there and a warning, and the load goes on; at
65536 words the load stops with a warning and ignores what is left; a word no token reaches is 0. What counts as a
token's value is the model's choice (log 12), and that what is left is ignored, valid or not, is its reading of R154
(log 13). -/
def Obligations.LoaderFillsBankI : Prop :=
  ∀ (toks : List (List Char)) (ns : List Nat), (toks.take 65536).map tokenValue = ns.map some →
    ∃ m ws, loadFrom 0 toks [] = .ok (m, ws) ∧
      (∀ k n, ns[k]? = some n → n ≤ 0xFFFF → (Memory.read m k).toNat = n) ∧
      (∀ k n, ns[k]? = some n → 0xFFFF < n → (Memory.read m k).toNat = 0) ∧
      (∀ k, ns[k]? = none → (Memory.read m k).toNat = 0) ∧
      (∀ k, LoadWarning.valueOutOfRange k ∈ ws ↔ ∃ n, ns[k]? = some n ∧ 0xFFFF < n) ∧
      (LoadWarning.overflow ∈ ws ↔ 65536 < toks.length)

/-- R155 as the spec decides it (D20; log 14): the first token within the bank that is not hexadecimal makes the load fail
at its address, and then no request of the host is served. What counts as hexadecimal is the model's choice (log 12),
and so is that the failure comes without the warnings given before it (log 27). -/
def Obligations.LoaderFailsOnBadToken : Prop :=
  (∀ (good bad : List (List Char)) (tok : List Char), (∀ t ∈ good, tokenValue t ≠ none) → tokenValue tok = none →
    good.length < 65536 → loadFrom 0 (good ++ tok :: bad) [] = .error (.notHexadecimal good.length)) ∧
  ∀ text e rs, boot text = .error e → hostRun text rs = .error e

/-- R158: a snapshot shows every register, pc, rsp, mar, the three banks and the flags as they stand; after it both flags
are clear and nothing else changed, so a second one shows them clear. -/
def Obligations.SnapshotShowsThenClears : Prop :=
  ∀ s : State, ∃ v t, snapshot s = (v, t) ∧
    (∀ r : Reg, v.x[r.val] = readReg r s) ∧ v.pc = s.pc ∧ v.rsp = s.rsp ∧ v.mar = s.mar ∧
    v.bankI = s.bankI ∧ v.bankD = s.bankD ∧ v.bankS = s.bankS ∧ v.dUpd = s.dUpd ∧ v.sUpd = s.sUpd ∧
    RegsKept s t ∧ BanksKept s t ∧ t.pc = s.pc ∧ t.rsp = s.rsp ∧ t.mar = s.mar ∧
    t.dUpd = false ∧ t.sUpd = false ∧ (snapshot t).1.dUpd = false ∧ (snapshot t).1.sUpd = false

/-- R53, R159, R160: whatever the host asks after a load, every request is served, none faults, and bank I still reads as the
loader left it. -/
def Obligations.HostRunKeepsProgram : Prop :=
  (∀ (rs : List Request) (s : State), ∃ t views, serve rs s = .next (t, views) ∧ BankKept .I s t) ∧
  ∀ text s ws rs, boot text = .ok (s, ws) →
    ∃ t views, hostRun text rs = .ok (.next (t, views)) ∧ BankKept .I s t
end

