-- ==== Sys2Proof/Laws/Decode.lean ====
section
/-! SUPPORT. The fields of a packed word, and the laws of register fields (30_encoding.md R60, R63, R64). -/

namespace Sys2Proof

@[simp] theorem regOf_regBits (r : Reg) : regOf (regBits r) = r := rfl
@[simp] theorem regBits_regOf (n : Nibble) : regBits (regOf n) = n := rfl

/-- R60, bit by bit. -/
theorem packWord_getLsbD (op a b y : Nibble) (i : Nat) :
    (packWord op a b y).getLsbD i =
      if i < 4 then y.getLsbD i else if i - 4 < 4 then b.getLsbD (i - 4)
        else if i - 4 - 4 < 4 then a.getLsbD (i - 4 - 4) else op.getLsbD (i - 4 - 4 - 4) := by
  simp only [packWord, BitVec.getLsbD_append]

@[simp] theorem opOf_packWord (op a b y : Nibble) : opOf (packWord op a b y) = op := by
  apply BitVec.eq_of_getLsbD_eq
  intro i hi
  simp only [opOf, field, BitVec.getLsbD_extractLsb', packWord_getLsbD, hi, show ¬ 12 + i < 4 by omega,
    show ¬ 12 + i - 4 < 4 by omega, show ¬ 12 + i - 4 - 4 < 4 by omega, show 12 + i - 4 - 4 - 4 = i by omega,
    if_false, decide_true, Bool.true_and]

@[simp] theorem fieldA_packWord (op a b y : Nibble) : fieldA (packWord op a b y) = a := by
  apply BitVec.eq_of_getLsbD_eq
  intro i hi
  simp only [fieldA, field, BitVec.getLsbD_extractLsb', packWord_getLsbD, hi, show ¬ 8 + i < 4 by omega,
    show ¬ 8 + i - 4 < 4 by omega, show 8 + i - 4 - 4 = i by omega, if_false, if_true, decide_true,
    Bool.true_and]

@[simp] theorem fieldB_packWord (op a b y : Nibble) : fieldB (packWord op a b y) = b := by
  apply BitVec.eq_of_getLsbD_eq
  intro i hi
  simp only [fieldB, field, BitVec.getLsbD_extractLsb', packWord_getLsbD, hi, show ¬ 4 + i < 4 by omega,
    show 4 + i - 4 = i by omega, if_false, if_true, decide_true, Bool.true_and]

@[simp] theorem fieldY_packWord (op a b y : Nibble) : fieldY (packWord op a b y) = y := by
  apply BitVec.eq_of_getLsbD_eq
  intro i hi
  simp only [fieldY, field, BitVec.getLsbD_extractLsb', packWord_getLsbD, hi, Nat.zero_add, if_true,
    decide_true, Bool.true_and]

/-- R64: Push's flag is the top bit of the `rB` field. -/
@[simp] theorem pushFlag_packWord (op a b y : Nibble) : pushFlag (packWord op a b y) = b.getLsbD 3 := by
  rw [pushFlag, packWord_getLsbD]
  rfl

@[simp] theorem popMid_packWord (op a b y : Nibble) : popMid (packWord op a b y) = a ++ b := by
  apply BitVec.eq_of_getLsbD_eq
  intro i hi
  simp only [popMid, BitVec.getLsbD_extractLsb', packWord_getLsbD, BitVec.getLsbD_append, hi,
    show ¬ 4 + i < 4 by omega, show 4 + i - 4 = i by omega, show i - 4 < 4 by omega, if_false, if_true,
    decide_true, Bool.true_and]

/-- R60: a word is its four fields. -/
theorem packWord_fields (w : Word) : packWord (opOf w) (fieldA w) (fieldB w) (fieldY w) = w := by
  apply BitVec.eq_of_getLsbD_eq
  intro i hi
  simp only [packWord, opOf, fieldA, fieldB, fieldY, field, BitVec.getLsbD_append, BitVec.getLsbD_extractLsb']
  split
  · simp_all
  · split
    · have : 4 + (i - 4) = i := by omega
      simp_all
    · split
      · have : 8 + (i - 4 - 4) = i := by omega
        simp_all
      · have : 12 + (i - 4 - 4 - 4) = i := by omega
        have : i - 4 - 4 - 4 < 4 := by omega
        simp_all

/-- Every word is a packed word: to prove a fact of all words, prove it of all fields. -/
theorem exists_packWord (w : Word) : ∃ op a b y, w = packWord op a b y :=
  ⟨_, _, _, _, (packWord_fields w).symm⟩

/-- The word of a Pop in the general format. -/
theorem popInstrWord_eq (y : Reg) (a b : Nibble) : popInstrWord y (a ++ b) = packWord 0xD a b (regBits y) := by
  apply BitVec.eq_of_getLsbD_eq
  intro i hi
  simp only [popInstrWord, packWord, BitVec.getLsbD_append]
  split
  · rfl
  · split
    · split
      · rfl
      · next h => simp [show i - 4 - 4 < 4 by omega]
    · next h =>
      have h2 : ¬ i - 4 < 4 := by omega
      have h3 : ¬ i - 4 - 4 < 4 := by omega
      have h4 : i - 4 - 8 = i - 4 - 4 - 4 := by omega
      simp [h2, h3, h4]

/-- Bits 11:4 of a Pop word are the fields `rA` and `rB`. -/
theorem exists_popMid (mid : BitVec 8) : ∃ a b : Nibble, mid = a ++ b := by
  refine ⟨mid.extractLsb' 4 4, mid.extractLsb' 0 4, ?_⟩
  apply BitVec.eq_of_getLsbD_eq
  intro i hi
  simp only [BitVec.getLsbD_append, BitVec.getLsbD_extractLsb']
  split
  · simp_all
  · have : 4 + (i - 4) = i := by omega
    have : i - 4 < 4 := by omega
    simp_all

end Sys2Proof
end

