-- ==== Sys2Proof/Laws/State.lean ====
section
/-! SUPPORT. One lemma per field per update, true by `rfl`, and what reading a register, a bank or a scalar gives
after each named update. -/

namespace Sys2Proof.Machine

/-! ### Updates that name one field -/

@[simp] theorem setPc_x (v : Word) (s : State) : (setPc v s).x = s.x := rfl
@[simp] theorem setPc_pc (v : Word) (s : State) : (setPc v s).pc = v := rfl
@[simp] theorem setPc_rsp (v : Word) (s : State) : (setPc v s).rsp = s.rsp := rfl
@[simp] theorem setPc_mar (v : Word) (s : State) : (setPc v s).mar = s.mar := rfl
@[simp] theorem setPc_dUpd (v : Word) (s : State) : (setPc v s).dUpd = s.dUpd := rfl
@[simp] theorem setPc_sUpd (v : Word) (s : State) : (setPc v s).sUpd = s.sUpd := rfl
@[simp] theorem setPc_bankI (v : Word) (s : State) : (setPc v s).bankI = s.bankI := rfl
@[simp] theorem setPc_bankD (v : Word) (s : State) : (setPc v s).bankD = s.bankD := rfl
@[simp] theorem setPc_bankS (v : Word) (s : State) : (setPc v s).bankS = s.bankS := rfl

@[simp] theorem advance_eq (n : Word) (s : State) : advance n s = setPc (s.pc + n) s := rfl

@[simp] theorem setRsp_x (v : Word) (s : State) : (setRsp v s).x = s.x := rfl
@[simp] theorem setRsp_pc (v : Word) (s : State) : (setRsp v s).pc = s.pc := rfl
@[simp] theorem setRsp_rsp (v : Word) (s : State) : (setRsp v s).rsp = v := rfl
@[simp] theorem setRsp_mar (v : Word) (s : State) : (setRsp v s).mar = s.mar := rfl
@[simp] theorem setRsp_dUpd (v : Word) (s : State) : (setRsp v s).dUpd = s.dUpd := rfl
@[simp] theorem setRsp_sUpd (v : Word) (s : State) : (setRsp v s).sUpd = s.sUpd := rfl
@[simp] theorem setRsp_bankI (v : Word) (s : State) : (setRsp v s).bankI = s.bankI := rfl
@[simp] theorem setRsp_bankD (v : Word) (s : State) : (setRsp v s).bankD = s.bankD := rfl
@[simp] theorem setRsp_bankS (v : Word) (s : State) : (setRsp v s).bankS = s.bankS := rfl

@[simp] theorem markData_x (v : Word) (s : State) : (markData v s).x = s.x := rfl
@[simp] theorem markData_pc (v : Word) (s : State) : (markData v s).pc = s.pc := rfl
@[simp] theorem markData_rsp (v : Word) (s : State) : (markData v s).rsp = s.rsp := rfl
@[simp] theorem markData_mar (v : Word) (s : State) : (markData v s).mar = v := rfl
@[simp] theorem markData_dUpd (v : Word) (s : State) : (markData v s).dUpd = true := rfl
@[simp] theorem markData_sUpd (v : Word) (s : State) : (markData v s).sUpd = s.sUpd := rfl
@[simp] theorem markData_bankI (v : Word) (s : State) : (markData v s).bankI = s.bankI := rfl
@[simp] theorem markData_bankD (v : Word) (s : State) : (markData v s).bankD = s.bankD := rfl
@[simp] theorem markData_bankS (v : Word) (s : State) : (markData v s).bankS = s.bankS := rfl

@[simp] theorem markStack_x (s : State) : (markStack s).x = s.x := rfl
@[simp] theorem markStack_pc (s : State) : (markStack s).pc = s.pc := rfl
@[simp] theorem markStack_rsp (s : State) : (markStack s).rsp = s.rsp := rfl
@[simp] theorem markStack_mar (s : State) : (markStack s).mar = s.mar := rfl
@[simp] theorem markStack_dUpd (s : State) : (markStack s).dUpd = s.dUpd := rfl
@[simp] theorem markStack_sUpd (s : State) : (markStack s).sUpd = true := rfl
@[simp] theorem markStack_bankI (s : State) : (markStack s).bankI = s.bankI := rfl
@[simp] theorem markStack_bankD (s : State) : (markStack s).bankD = s.bankD := rfl
@[simp] theorem markStack_bankS (s : State) : (markStack s).bankS = s.bankS := rfl

@[simp] theorem writeReg_pc (r : Reg) (v : Word) (s : State) : (writeReg r v s).pc = s.pc := rfl
@[simp] theorem writeReg_rsp (r : Reg) (v : Word) (s : State) : (writeReg r v s).rsp = s.rsp := rfl
@[simp] theorem writeReg_mar (r : Reg) (v : Word) (s : State) : (writeReg r v s).mar = s.mar := rfl
@[simp] theorem writeReg_dUpd (r : Reg) (v : Word) (s : State) : (writeReg r v s).dUpd = s.dUpd := rfl
@[simp] theorem writeReg_sUpd (r : Reg) (v : Word) (s : State) : (writeReg r v s).sUpd = s.sUpd := rfl
@[simp] theorem writeReg_bankI (r : Reg) (v : Word) (s : State) : (writeReg r v s).bankI = s.bankI := rfl
@[simp] theorem writeReg_bankD (r : Reg) (v : Word) (s : State) : (writeReg r v s).bankD = s.bankD := rfl
@[simp] theorem writeReg_bankS (r : Reg) (v : Word) (s : State) : (writeReg r v s).bankS = s.bankS := rfl

/-! ### Bank updates -/

@[simp] theorem setBank_x (B : Bank) (m : Memory) (s : State) : (setBank B m s).x = s.x := by cases B <;> rfl
@[simp] theorem setBank_pc (B : Bank) (m : Memory) (s : State) : (setBank B m s).pc = s.pc := by cases B <;> rfl
@[simp] theorem setBank_rsp (B : Bank) (m : Memory) (s : State) : (setBank B m s).rsp = s.rsp := by cases B <;> rfl
@[simp] theorem setBank_mar (B : Bank) (m : Memory) (s : State) : (setBank B m s).mar = s.mar := by cases B <;> rfl
@[simp] theorem setBank_dUpd (B : Bank) (m : Memory) (s : State) : (setBank B m s).dUpd = s.dUpd := by
  cases B <;> rfl
@[simp] theorem setBank_sUpd (B : Bank) (m : Memory) (s : State) : (setBank B m s).sUpd = s.sUpd := by
  cases B <;> rfl

/-- R40: a bank's contents after one bank is replaced. -/
@[simp] theorem bank_setBank (B B' : Bank) (m : Memory) (s : State) :
    bank B' (setBank B m s) = if B' = B then m else bank B' s := by
  cases B <;> cases B' <;> rfl

@[simp] theorem memWrite_x (B : Bank) (a v : Word) (s : State) : (memWrite B a v s).x = s.x := setBank_x ..
@[simp] theorem memWrite_pc (B : Bank) (a v : Word) (s : State) : (memWrite B a v s).pc = s.pc := setBank_pc ..
@[simp] theorem memWrite_rsp (B : Bank) (a v : Word) (s : State) : (memWrite B a v s).rsp = s.rsp := setBank_rsp ..
@[simp] theorem memWrite_mar (B : Bank) (a v : Word) (s : State) : (memWrite B a v s).mar = s.mar := setBank_mar ..
@[simp] theorem memWrite_dUpd (B : Bank) (a v : Word) (s : State) : (memWrite B a v s).dUpd = s.dUpd :=
  setBank_dUpd ..
@[simp] theorem memWrite_sUpd (B : Bank) (a v : Word) (s : State) : (memWrite B a v s).sUpd = s.sUpd :=
  setBank_sUpd ..

/-! ### Reading a register after an update -/

/-- R21: a register reads what was last written to it. -/
@[simp] theorem readReg_writeReg (r y : Reg) (v : Word) (s : State) :
    readReg r (writeReg y v s) = if r = y then v else readReg r s := by
  simp only [readReg, writeReg, Vector.getElem_set, Fin.val_inj]
  by_cases h : r = y
  · simp [h]
  · simp [h, Ne.symm h]

/-- Writing back what a register holds changes nothing (R80). -/
theorem writeReg_self (r : Reg) (s : State) : writeReg r (readReg r s) s = s := by
  simp [writeReg, readReg]

@[simp] theorem readReg_setPc (r : Reg) (v : Word) (s : State) : readReg r (setPc v s) = readReg r s := rfl
@[simp] theorem readReg_setRsp (r : Reg) (v : Word) (s : State) : readReg r (setRsp v s) = readReg r s := rfl
@[simp] theorem readReg_markData (r : Reg) (v : Word) (s : State) : readReg r (markData v s) = readReg r s := rfl
@[simp] theorem readReg_markStack (r : Reg) (s : State) : readReg r (markStack s) = readReg r s := rfl
@[simp] theorem readReg_memWrite (r : Reg) (B : Bank) (a v : Word) (s : State) :
    readReg r (memWrite B a v s) = readReg r s := by
  simp [readReg]

/-! ### Reading a bank after an update of something else -/

@[simp] theorem memRead_setPc (B : Bank) (a v : Word) (s : State) : memRead B a (setPc v s) = memRead B a s := by
  cases B <;> rfl
@[simp] theorem memRead_setRsp (B : Bank) (a v : Word) (s : State) : memRead B a (setRsp v s) = memRead B a s := by
  cases B <;> rfl
@[simp] theorem memRead_markData (B : Bank) (a v : Word) (s : State) :
    memRead B a (markData v s) = memRead B a s := by
  cases B <;> rfl
@[simp] theorem memRead_markStack (B : Bank) (a : Word) (s : State) :
    memRead B a (markStack s) = memRead B a s := by
  cases B <;> rfl
@[simp] theorem memRead_writeReg (B : Bank) (a : Word) (r : Reg) (v : Word) (s : State) :
    memRead B a (writeReg r v s) = memRead B a s := by
  cases B <;> rfl

end Sys2Proof.Machine
end

