-- ==== Sys2Proof/Laws/Memory.lean ====
section
/-! SUPPORT. The laws of banks: a read after a write, and that every operation keeps the canonical form. -/

namespace Sys2Proof.Machine

/-! ### Reading -/

@[simp] theorem Memory.read_nil (a : Nat) : Memory.read [] a = Memory.unlisted := rfl

theorem Memory.read_cons (k : Nat) (v : Word) (m : Memory) (a : Nat) :
    Memory.read ((k, v) :: m) a = if k = a then v else Memory.read m a := rfl

/-- An erased address reads as an unlisted one; every other address is as it was. -/
theorem Memory.read_erase (m : Memory) (a b : Nat) :
    Memory.read (Memory.erase m a) b = if b = a then Memory.unlisted else Memory.read m b := by
  induction m with
  | nil => simp [Memory.erase]
  | cons c m ih =>
    obtain ⟨k, v⟩ := c
    by_cases hk : k = a
    · have : Memory.erase ((k, v) :: m) a = Memory.erase m a := by simp [Memory.erase, hk]
      rw [this, ih, Memory.read_cons]
      by_cases hb : b = a
      · simp [hb]
      · simp [hb, hk, Ne.symm hb]
    · have : Memory.erase ((k, v) :: m) a = (k, v) :: Memory.erase m a := by simp [Memory.erase, hk]
      rw [this, Memory.read_cons, ih, Memory.read_cons]
      by_cases hb : k = b
      · subst hb; simp [hk]
      · simp [hb]

/-- A cell put into a list that does not have its address is read there; every other address is as it was. -/
theorem Memory.read_insert (m : Memory) (a b : Nat) (v : Word) (h : ∀ c ∈ m, c.1 ≠ a) :
    Memory.read (Memory.insert m a v) b = if b = a then v else Memory.read m b := by
  induction m with
  | nil => simp [Memory.insert, Memory.read_cons, eq_comm]
  | cons c m ih =>
    obtain ⟨k, u⟩ := c
    have hk : k ≠ a := h (k, u) (by simp)
    have ih := ih fun c hc => h c (by simp [hc])
    unfold Memory.insert
    split
    · rw [Memory.read_cons]
      simp [eq_comm]
    · rw [Memory.read_cons, Memory.read_cons, ih]
      by_cases hb : k = b
      · subst hb; simp [hk]
      · simp [hb]

theorem Memory.erase_ne (m : Memory) (a : Nat) : ∀ c ∈ Memory.erase m a, c.1 ≠ a := by
  intro c hc
  simpa [Memory.erase] using (List.mem_filter.mp hc).2

/-- R46: a read returns the value last written to that cell. -/
theorem Memory.read_write (m : Memory) (a b : Nat) (v : Word) :
    Memory.read (Memory.write m a v) b = if b = a then v else Memory.read m b := by
  unfold Memory.write
  split
  · next hv => rw [Memory.read_erase, hv]
  · rw [Memory.read_insert _ _ _ _ (Memory.erase_ne m a), Memory.read_erase]
    split <;> rfl

/-- R40, R46: a read of any bank after a write to any bank. -/
@[simp] theorem memRead_memWrite (B B' : Bank) (a a' v : Word) (s : State) :
    memRead B' a' (memWrite B a v s) =
      if B' = B then (if a' = a then v else memRead B' a' s) else memRead B' a' s := by
  unfold memRead memWrite
  rw [bank_setBank]
  by_cases hB : B' = B
  · simp only [hB, if_true, Memory.read_write, BitVec.toNat_inj]
  · simp [hB]

/-! ### The canonical form -/

/-- What the canonical form says of its first cell and of the rest. -/
theorem Memory.wfFrom_cons (lo k : Nat) (v : Word) (m : Memory) :
    Memory.wfFrom lo ((k, v) :: m) = true ↔
      lo ≤ k ∧ k < bankSize ∧ v ≠ Memory.unlisted ∧ Memory.wfFrom (k + 1) m = true := by
  simp [Memory.wfFrom, and_assoc]

theorem Memory.wfFrom_mono {lo lo' : Nat} (m : Memory) (h : lo ≤ lo') (hm : Memory.wfFrom lo' m = true) :
    Memory.wfFrom lo m = true := by
  cases m with
  | nil => rfl
  | cons c m =>
    rw [Memory.wfFrom_cons] at hm ⊢
    exact ⟨by omega, hm.2⟩

theorem Memory.wfFrom_erase (m : Memory) (a : Nat) :
    ∀ lo, Memory.wfFrom lo m = true → Memory.wfFrom lo (Memory.erase m a) = true := by
  induction m with
  | nil => intro lo _; rfl
  | cons c m ih =>
    intro lo hm
    obtain ⟨k, v⟩ := c
    rw [Memory.wfFrom_cons] at hm
    by_cases hk : k = a
    · have : Memory.erase ((k, v) :: m) a = Memory.erase m a := by simp [Memory.erase, hk]
      rw [this]
      exact ih lo (Memory.wfFrom_mono m (by omega) hm.2.2.2)
    · have : Memory.erase ((k, v) :: m) a = (k, v) :: Memory.erase m a := by simp [Memory.erase, hk]
      rw [this, Memory.wfFrom_cons]
      exact ⟨hm.1, hm.2.1, hm.2.2.1, ih (k + 1) hm.2.2.2⟩

theorem Memory.wfFrom_insert (m : Memory) (a : Nat) (v : Word) (ha : a < bankSize) (hv : v ≠ Memory.unlisted) :
    ∀ lo, lo ≤ a → (∀ c ∈ m, c.1 ≠ a) → Memory.wfFrom lo m = true →
      Memory.wfFrom lo (Memory.insert m a v) = true := by
  induction m with
  | nil =>
    intro lo hlo _ _
    rw [Memory.insert, Memory.wfFrom_cons]
    exact ⟨hlo, ha, hv, rfl⟩
  | cons c m ih =>
    intro lo hlo hne hm
    obtain ⟨k, u⟩ := c
    have hk : k ≠ a := hne (k, u) (by simp)
    rw [Memory.wfFrom_cons] at hm
    unfold Memory.insert
    split
    · next hlt =>
      rw [Memory.wfFrom_cons, Memory.wfFrom_cons]
      exact ⟨hlo, ha, hv, by omega, hm.2⟩
    · next hge =>
      rw [Memory.wfFrom_cons]
      exact ⟨hm.1, hm.2.1, hm.2.2.1, ih (k + 1) (by omega) (fun c hc => hne c (by simp [hc])) hm.2.2.2⟩

/-- A write inside the bank keeps the canonical form. -/
theorem Memory.wf_write (m : Memory) (a : Nat) (v : Word) (ha : a < bankSize) (hm : m.wf = true) :
    (Memory.write m a v).wf = true := by
  unfold Memory.write Memory.wf
  have he := Memory.wfFrom_erase m a 0 hm
  split
  · exact he
  · next hv => exact Memory.wfFrom_insert _ a v ha hv 0 (by omega) (Memory.erase_ne m a) he

theorem Memory.wf_nil : Memory.wf [] = true := rfl

/-- R41: every Word is an address inside the bank. -/
theorem addr_lt_bankSize (a : Word) : a.toNat < bankSize := a.isLt

/-- The canonical form of a state, bank by bank. -/
theorem State.wf_iff (s : State) : s.wf = true ↔ ∀ B, (bank B s).wf = true := by
  constructor
  · intro h B
    simp only [State.wf, Bool.and_eq_true] at h
    cases B
    · exact h.1.1
    · exact h.1.2
    · exact h.2
  · intro h
    simp only [State.wf, Bool.and_eq_true]
    exact ⟨⟨h .I, h .D⟩, h .S⟩

/-- Writing a word to a bank keeps the canonical form of the state. -/
theorem State.wf_memWrite (B : Bank) (a v : Word) (s : State) (h : s.wf = true) : (memWrite B a v s).wf = true := by
  rw [State.wf_iff] at h ⊢
  intro B'
  rw [memWrite, bank_setBank]
  split
  · exact Memory.wf_write _ _ _ (addr_lt_bankSize a) (h B)
  · exact h B'

@[simp] theorem State.wf_setPc (v : Word) (s : State) : (setPc v s).wf = s.wf := rfl
@[simp] theorem State.wf_setRsp (v : Word) (s : State) : (setRsp v s).wf = s.wf := rfl
@[simp] theorem State.wf_markData (v : Word) (s : State) : (markData v s).wf = s.wf := rfl
@[simp] theorem State.wf_markStack (s : State) : (markStack s).wf = s.wf := rfl
@[simp] theorem State.wf_writeReg (r : Reg) (v : Word) (s : State) : (writeReg r v s).wf = s.wf := rfl
@[simp] theorem State.wf_clearUpdated (s : State) : (clearUpdated s).wf = s.wf := rfl

end Sys2Proof.Machine
end

