-- ==== Sys2Proof/Laws/Ops.lean ====
section
/-! SUPPORT. For each shared operation of the meanings, what it does to every field, so that no later proof
unfolds it. -/

namespace Sys2Proof.Machine

/-! ### Write a result and go on -/

@[simp] theorem putResult_reg (r y : Reg) (v : Word) (s : State) :
    readReg r (putResult y v s) = if r = y then v else readReg r s := by
  simp [putResult]
@[simp] theorem putResult_pc (y : Reg) (v : Word) (s : State) : (putResult y v s).pc = s.pc + 1 := rfl
@[simp] theorem putResult_rsp (y : Reg) (v : Word) (s : State) : (putResult y v s).rsp = s.rsp := rfl
@[simp] theorem putResult_mar (y : Reg) (v : Word) (s : State) : (putResult y v s).mar = s.mar := rfl
@[simp] theorem putResult_dUpd (y : Reg) (v : Word) (s : State) : (putResult y v s).dUpd = s.dUpd := rfl
@[simp] theorem putResult_sUpd (y : Reg) (v : Word) (s : State) : (putResult y v s).sUpd = s.sUpd := rfl
@[simp] theorem putResult_mem (B : Bank) (a : Word) (y : Reg) (v : Word) (s : State) :
    memRead B a (putResult y v s) = memRead B a s := by
  simp [putResult]
@[simp] theorem putResult_wf (y : Reg) (v : Word) (s : State) : (putResult y v s).wf = s.wf := rfl

/-! ### Push -/

@[simp] theorem pushWord_reg (r : Reg) (v : Word) (s : State) : readReg r (pushWord v s) = readReg r s := by
  simp [pushWord]
@[simp] theorem pushWord_pc (v : Word) (s : State) : (pushWord v s).pc = s.pc + 1 := by simp [pushWord]
@[simp] theorem pushWord_rsp (v : Word) (s : State) : (pushWord v s).rsp = s.rsp + 1 := by simp [pushWord]
@[simp] theorem pushWord_mar (v : Word) (s : State) : (pushWord v s).mar = s.mar := by simp [pushWord]
@[simp] theorem pushWord_dUpd (v : Word) (s : State) : (pushWord v s).dUpd = s.dUpd := by simp [pushWord]
@[simp] theorem pushWord_sUpd (v : Word) (s : State) : (pushWord v s).sUpd = true := by simp [pushWord]

/-- R110: the slot named by `rsp` gets the word; every other word of every bank is as it was. -/
@[simp] theorem pushWord_mem (B : Bank) (a v : Word) (s : State) :
    memRead B a (pushWord v s) =
      if B = .S then (if a = s.rsp then v else memRead B a s) else memRead B a s := by
  simp [pushWord, pushSlot]
theorem pushWord_wf (v : Word) (s : State) (h : s.wf = true) : (pushWord v s).wf = true := by
  simpa [pushWord] using State.wf_memWrite .S _ v s h

/-! ### Pop -/

@[simp] theorem popWord_reg (flag : Bool) (r y : Reg) (s : State) :
    readReg r (popWord flag y s) = if flag = false ∧ r = y then memRead .S (s.rsp - 1) s else readReg r s := by
  cases flag <;> simp [popWord, topSlot]
@[simp] theorem popWord_pc (flag : Bool) (y : Reg) (s : State) :
    (popWord flag y s).pc = (if flag then memRead .S (s.rsp - 1) s else s.pc) + 1 := by
  cases flag <;> simp [popWord, topSlot]
@[simp] theorem popWord_rsp (flag : Bool) (y : Reg) (s : State) : (popWord flag y s).rsp = s.rsp - 1 := by
  cases flag <;> simp [popWord, topSlot]
@[simp] theorem popWord_mar (flag : Bool) (y : Reg) (s : State) : (popWord flag y s).mar = s.mar := by
  cases flag <;> simp [popWord]
@[simp] theorem popWord_dUpd (flag : Bool) (y : Reg) (s : State) : (popWord flag y s).dUpd = s.dUpd := by
  cases flag <;> simp [popWord]
@[simp] theorem popWord_sUpd (flag : Bool) (y : Reg) (s : State) : (popWord flag y s).sUpd = true := by
  cases flag <;> simp [popWord]

/-- R111: no word of any bank changes; the popped slot is not cleared. -/
@[simp] theorem popWord_mem (B : Bank) (a : Word) (flag : Bool) (y : Reg) (s : State) :
    memRead B a (popWord flag y s) = memRead B a s := by
  cases flag <;> simp [popWord]
@[simp] theorem popWord_wf (flag : Bool) (y : Reg) (s : State) : (popWord flag y s).wf = s.wf := by
  cases flag <;> rfl

/-! ### Branch -/

@[simp] theorem branch_reg (taken : Bool) (r a : Reg) (s : State) : readReg r (branch taken a s) = readReg r s := by
  cases taken <;> rfl
@[simp] theorem branch_pc (taken : Bool) (a : Reg) (s : State) :
    (branch taken a s).pc = if taken then readReg a s else s.pc + 1 := by
  cases taken <;> rfl
@[simp] theorem branch_rsp (taken : Bool) (a : Reg) (s : State) : (branch taken a s).rsp = s.rsp := by
  cases taken <;> rfl
@[simp] theorem branch_mar (taken : Bool) (a : Reg) (s : State) : (branch taken a s).mar = s.mar := by
  cases taken <;> rfl
@[simp] theorem branch_dUpd (taken : Bool) (a : Reg) (s : State) : (branch taken a s).dUpd = s.dUpd := by
  cases taken <;> rfl
@[simp] theorem branch_sUpd (taken : Bool) (a : Reg) (s : State) : (branch taken a s).sUpd = s.sUpd := by
  cases taken <;> rfl
@[simp] theorem branch_mem (B : Bank) (b : Word) (taken : Bool) (a : Reg) (s : State) :
    memRead B b (branch taken a s) = memRead B b s := by
  cases taken <;> simp [branch]
@[simp] theorem branch_wf (taken : Bool) (a : Reg) (s : State) : (branch taken a s).wf = s.wf := by
  cases taken <;> rfl

/-! ### The three banks of the host's own accesses -/

@[simp] theorem clearUpdated_mem (B : Bank) (a : Word) (s : State) :
    memRead B a (clearUpdated s) = memRead B a s := by
  cases B <;> rfl
@[simp] theorem clearUpdated_reg (r : Reg) (s : State) : readReg r (clearUpdated s) = readReg r s := rfl

/-- The instruction of the next step depends on pc and bank I alone. -/
theorem fetchInstr_congr {s t : State} (hpc : t.pc = s.pc) (hI : t.bankI = s.bankI) :
    fetchInstr t = fetchInstr s := by
  simp [fetchInstr, fetchWord, fetchLiteral, memRead, bank, hpc, hI]

end Sys2Proof.Machine
end

