-- ==== Sys2Proof/Laws/PerInstr.lean ====
section
/-! SUPPORT. Facts about every instruction as syntax, one lemma per constructor. -/

namespace Sys2Proof

/-- What the encoder gives for any instruction: the first word carries the opcode of R65, and there are as many
words as R61 says, the first word first. -/
def Laws.EncodedShape.Statement (i : Instr) : Prop :=
  opOf (encodeFirst i) = i.opcode ∧ (encode i).length = i.length ∧ (encode i).head? = some (encodeFirst i)

theorem Laws.EncodedShape.mov (rY : Reg) (rA : Reg) :
    Laws.EncodedShape.Statement (.mov rY rA) := ⟨opOf_packWord .., rfl, rfl⟩

theorem Laws.EncodedShape.ldi (rY : Reg) (imm : Word) :
    Laws.EncodedShape.Statement (.ldi rY imm) := ⟨opOf_packWord .., rfl, rfl⟩

theorem Laws.EncodedShape.st (rA : Reg) (rB : Reg) :
    Laws.EncodedShape.Statement (.st rA rB) := ⟨opOf_packWord .., rfl, rfl⟩

theorem Laws.EncodedShape.ld (rY : Reg) (rA : Reg) (rB : Reg) :
    Laws.EncodedShape.Statement (.ld rY rA rB) := ⟨opOf_packWord .., rfl, rfl⟩

theorem Laws.EncodedShape.bitOr (rY : Reg) (rA : Reg) (rB : Reg) :
    Laws.EncodedShape.Statement (.bitOr rY rA rB) := ⟨opOf_packWord .., rfl, rfl⟩

theorem Laws.EncodedShape.bitNot (rY : Reg) (rA : Reg) :
    Laws.EncodedShape.Statement (.bitNot rY rA) := ⟨opOf_packWord .., rfl, rfl⟩

theorem Laws.EncodedShape.bitAnd (rY : Reg) (rA : Reg) (rB : Reg) :
    Laws.EncodedShape.Statement (.bitAnd rY rA rB) := ⟨opOf_packWord .., rfl, rfl⟩

theorem Laws.EncodedShape.bitXor (rY : Reg) (rA : Reg) (rB : Reg) :
    Laws.EncodedShape.Statement (.bitXor rY rA rB) := ⟨opOf_packWord .., rfl, rfl⟩

theorem Laws.EncodedShape.add (rY : Reg) (rA : Reg) (rB : Reg) :
    Laws.EncodedShape.Statement (.add rY rA rB) := ⟨opOf_packWord .., rfl, rfl⟩

theorem Laws.EncodedShape.sub (rY : Reg) (rA : Reg) (rB : Reg) :
    Laws.EncodedShape.Statement (.sub rY rA rB) := ⟨opOf_packWord .., rfl, rfl⟩

theorem Laws.EncodedShape.lnot (rY : Reg) (rA : Reg) :
    Laws.EncodedShape.Statement (.lnot rY rA) := ⟨opOf_packWord .., rfl, rfl⟩

theorem Laws.EncodedShape.shr (rY : Reg) (rA : Reg) :
    Laws.EncodedShape.Statement (.shr rY rA) := ⟨opOf_packWord .., rfl, rfl⟩

theorem Laws.EncodedShape.push (rA : Reg) :
    Laws.EncodedShape.Statement (.push rA) := ⟨opOf_packWord .., rfl, rfl⟩

theorem Laws.EncodedShape.pushPc : Laws.EncodedShape.Statement .pushPc := ⟨opOf_packWord .., rfl, rfl⟩

theorem Laws.EncodedShape.pop (rY : Reg) (mid : BitVec 8) :
    Laws.EncodedShape.Statement (.pop rY mid) := by
  obtain ⟨a, b, rfl⟩ := exists_popMid mid
  exact ⟨by rw [encodeFirst, popInstrWord_eq, opOf_packWord]; rfl, rfl, rfl⟩

theorem Laws.EncodedShape.jmp (rA : Reg) :
    Laws.EncodedShape.Statement (.jmp rA) := ⟨opOf_packWord .., rfl, rfl⟩

theorem Laws.EncodedShape.jz (rA : Reg) (rB : Reg) :
    Laws.EncodedShape.Statement (.jz rA rB) := ⟨opOf_packWord .., rfl, rfl⟩

theorem Laws.EncodedShape.jnz (rA : Reg) (rB : Reg) :
    Laws.EncodedShape.Statement (.jnz rA rB) := ⟨opOf_packWord .., rfl, rfl⟩

theorem Laws.EncodedShape.jneg (rA : Reg) (rB : Reg) :
    Laws.EncodedShape.Statement (.jneg rA rB) := ⟨opOf_packWord .., rfl, rfl⟩

theorem Laws.EncodedShape.jpos (rA : Reg) (rB : Reg) :
    Laws.EncodedShape.Statement (.jpos rA rB) := ⟨opOf_packWord .., rfl, rfl⟩

theorem Laws.EncodedShape.jcMid (c : Nibble) (rA : Reg) (rB : Reg) :
    Laws.EncodedShape.Statement (.jcMid c rA rB) := ⟨opOf_packWord .., rfl, rfl⟩

theorem Laws.EncodedShape.jcHigh (c : Nibble) (rA : Reg) (rB : Reg) :
    Laws.EncodedShape.Statement (.jcHigh c rA rB) := ⟨opOf_packWord .., rfl, rfl⟩

end Sys2Proof
end

