-- ==== Sys2Proof/Tests/Slice0.lean ====
section
/-! SUPPORT. Tests of the model, each one step or less, with expected results from spec/95_test_vectors.md (V and S
numbers) or from the examples in the instruction rules; then a witness for the hypotheses of each statement. -/

namespace Sys2Proof.Tests

open Sys2Proof.Machine

/-! ### Ill-formed terms are refused -/

theorem test_jcMid_below_range_ill_formed : (Instr.jcMid 3 0 0).wellFormed = false := by decide
theorem test_jcMid_above_range_ill_formed : (Instr.jcMid 8 0 0).wellFormed = false := by decide
theorem test_jcHigh_below_range_ill_formed : (Instr.jcHigh 7 0 0).wellFormed = false := by decide
theorem test_decode_empty_refused : decode [] = .error .noWord := by rfl
theorem test_decode_ldi_without_literal_refused : decode [0x1007] = .error .noLiteral := by rfl

/-! ### Words written out from the encodings of R60 to R66 -/

theorem test_decode_mov : decode [0b0000_0001_1111_0011] = .ok (.mov 3 1, []) := by rfl
theorem test_decode_ldi : decode [0b0001_1111_1111_0111, 0xABCD, 0x0001] = .ok (.ldi 7 0xABCD, [0x0001]) := by rfl
theorem test_decode_st : decode [0b0010_0010_0011_0000] = .ok (.st 2 3, []) := by rfl
theorem test_decode_ld : decode [0b0011_0001_0101_0100] = .ok (.ld 4 1 5, []) := by rfl
theorem test_decode_or : decode [0b0100_0001_0010_0011] = .ok (.bitOr 3 1 2, []) := by rfl
theorem test_decode_not : decode [0b0101_0001_0000_0010] = .ok (.bitNot 2 1, []) := by rfl
theorem test_decode_and : decode [0b0110_0001_0010_0011] = .ok (.bitAnd 3 1 2, []) := by rfl
theorem test_decode_xor : decode [0b0111_0001_0010_0011] = .ok (.bitXor 3 1 2, []) := by rfl
theorem test_decode_add : decode [0b1000_0001_0010_0011] = .ok (.add 3 1 2, []) := by rfl
theorem test_decode_sub : decode [0b1001_0010_0001_0011] = .ok (.sub 3 2 1, []) := by rfl
theorem test_decode_lnot : decode [0b1010_0001_0000_0011] = .ok (.lnot 3 1, []) := by rfl
theorem test_decode_shr : decode [0b1011_0001_0010_0011] = .ok (.shr 3 1, []) := by rfl
theorem test_decode_push : decode [0b1100_0001_0111_1111] = .ok (.push 1, []) := by rfl
theorem test_decode_push_pc : decode [0b1100_0101_1000_0000] = .ok (.pushPc, []) := by rfl
theorem test_decode_pop : decode [0b1101_1010_0101_0110] = .ok (.pop 6 0xA5, []) := by rfl
theorem test_decode_jmp : decode [0b1110_0001_1111_1111] = .ok (.jmp 1, []) := by rfl
theorem test_decode_jz : decode [0b1111_0001_0010_0000] = .ok (.jz 1 2, []) := by rfl
theorem test_decode_jnz : decode [0b1111_0001_0010_0001] = .ok (.jnz 1 2, []) := by rfl
theorem test_decode_jneg : decode [0b1111_0001_0010_0010] = .ok (.jneg 1 2, []) := by rfl
theorem test_decode_jpos : decode [0b1111_0001_0010_0011] = .ok (.jpos 1 2, []) := by rfl
theorem test_decode_jc_low : decode [0b1111_0001_0010_0100] = .ok (.jcMid 4 1 2, []) := by rfl
theorem test_decode_jc_seven : decode [0b1111_0001_0010_0111] = .ok (.jcMid 7 1 2, []) := by rfl
theorem test_decode_jc_eight : decode [0b1111_0001_0010_1000] = .ok (.jcHigh 8 1 2, []) := by rfl
theorem test_decode_jc_fifteen : decode [0b1111_0001_0010_1111] = .ok (.jcHigh 15 1 2, []) := by rfl

/-- R61, with the numbering of opcode_table.json: the literal is in bits 31:16. -/
theorem test_table_word_ldi : decodeTableWord 32 0xABCD1007 = some (.ldi 7 0xABCD) := by decide
theorem test_table_word_ldi_short : decodeTableWord 16 0x1007 = some (.ldi 7 0) := by decide
/-- R69, R70: canonical encodings. -/
theorem test_encode_push_pc : encode .pushPc = [0xC080] := by decide
theorem test_encode_ldi : encode (.ldi 7 0xABCD) = [0x1007, 0xABCD] := by decide
theorem test_encode_sub : encode (.sub 3 2 1) = [0x9213] := by decide

/-- R71. -/
theorem test_pseudo_instructions : encode Instr.nop = [0x0000] ∧ encode (Instr.clr 5) = [0x7555] := by decide
/-- R70. -/
theorem test_assembly : (Instr.sub 3 2 1).assembly = "SUB r3, r2, r1" ∧ (Instr.st 2 3).assembly = "ST r2, [r3]" ∧
    (Instr.ldi 7 43981).assembly = "LDI r7, 43981" := by decide

/-! ### One step of each instruction -/

/-- The reset state with some registers set and an instruction placed at `pc`. -/
def start (regs : List (Reg × Word)) (pc : Word) (w : Nat) : State :=
  State.withFetchWord (setPc pc (regs.foldl (fun s p => writeReg p.1 p.2 s) State.reset)) 32 w

/-- What is seen of the state after one step, if the step answers one. -/
def seen {α : Type} (s : State) (f : State → α) : Option α :=
  match step s with
  | .next t => some (f t)
  | .fault _ => none
  | .refused _ => none

/-- V1, with the ignored bits 7:4 set. (V2 prints the word 0x0F13 for this, whose `rA` field is 15 by R60; log 26.) -/
theorem test_mov : seen (start [(1, 0x1234)] 0 0x01F3) (fun t => (readReg 3 t, t.pc)) = some (0x1234, 0x0001) := by
  decide
/-- V3. -/
theorem test_mov_wraps_pc : seen (start [(2, 7)] 0xFFFF 0x0202) (fun t => (readReg 2 t, t.pc)) = some (7, 0) := by
  decide
/-- V7. -/
theorem test_ldi : seen (start [] 0x0010 0xABCD1FF7) (fun t => (readReg 7 t, t.pc)) = some (0xABCD, 0x0012) := by
  decide
/-- V5. -/
theorem test_ldi_wraps :
    seen (start [] 0xFFFF 0x55551007) (fun t => (readReg 7 t, t.pc)) = some (0x5555, 0x0001) := by
  decide
/-- V8. -/
theorem test_st : seen (start [(2, 0x00AA), (3, 0x0100)] 0 0x2230)
    (fun t => (memRead .D 0x0100 t, t.mar, t.dUpd, t.sUpd)) = some (0x00AA, 0x0100, true, false) := by
  decide
/-- V10: the other banks are unchanged at the same address. -/
theorem test_st_top : seen (start [(1, 0xFFFF), (2, 0x4242)] 0 0x2210)
    (fun t => (memRead .D 0xFFFF t, memRead .I 0xFFFF t, memRead .S 0xFFFF t)) = some (0x4242, 0, 0) := by
  decide
/-- V11. -/
theorem test_ld : seen (memWrite .D 0x0200 0x7777 (start [(1, 0x0200), (5, 0x0042)] 0 0x3154))
    (fun t => (readReg 4 t, t.mar, t.dUpd, t.pc)) = some (0x7777, 0x0042, true, 1) := by
  decide
/-- V13: `mar` is read after the register write. -/
theorem test_ld_mar_after_write : seen (memWrite .D 0x0200 0x7777 (start [(1, 0x0200), (4, 0x0042)] 0 0x3144))
    (fun t => (readReg 4 t, t.mar)) = some (0x7777, 0x7777) := by
  decide
/-- V20. -/
theorem test_or : seen (start [(1, 0xF0F0), (2, 0x0FF0)] 0 0x4123) (readReg 3) = some 0xFFF0 := by decide
/-- V21. -/
theorem test_not : seen (start [(1, 0x1234)] 0 0x5103) (readReg 3) = some 0xEDCB := by decide
/-- V23. -/
theorem test_and : seen (start [(1, 0xF0F0), (2, 0x0FF0)] 0 0x6123) (readReg 3) = some 0x00F0 := by decide
/-- V24. -/
theorem test_xor : seen (start [(1, 0xF0F0), (2, 0x0FF0)] 0 0x7123) (readReg 3) = some 0xFF00 := by decide
/-- V26. -/
theorem test_add_wraps : seen (start [(1, 0xF0F0), (2, 0x0FF0)] 0 0x8123) (readReg 3) = some 0x00E0 := by decide
/-- V40. -/
theorem test_add_in_place : seen (start [(1, 3), (2, 4)] 0 0x8121) (readReg 1) = some 7 := by decide
/-- V31. -/
theorem test_sub_wraps : seen (start [(1, 1), (2, 2)] 0 0x9123) (readReg 3) = some 0xFFFF := by decide
/-- V32. -/
theorem test_sub_operand_order : seen (start [(1, 2), (2, 1)] 0 0x9213) (readReg 3) = some 0xFFFF := by decide
/-- V33. -/
theorem test_lnot_zero : seen (start [] 0 0xA103) (readReg 3) = some 1 := by decide
/-- V34. -/
theorem test_lnot_top_bit : seen (start [(1, 0x8000), (3, 9)] 0 0xA103) (readReg 3) = some 0 := by decide
/-- V39: `rB` is no shift amount. -/
theorem test_shr : seen (start [(1, 0x8001), (2, 3)] 0 0xB123) (readReg 3) = some 0x4000 := by decide
/-- V50. -/
theorem test_push : seen (start [(1, 0xBEEF)] 2 0xC100) (fun t => (memRead .S 0 t, t.rsp, t.sUpd, t.pc))
    = some (0xBEEF, 1, true, 3) := by
  decide
/-- V51. -/
theorem test_push_wraps : seen (setRsp 0xFFFF (start [(1, 0x1111)] 0 0xC100))
    (fun t => (memRead .S 0xFFFF t, t.rsp)) = some (0x1111, 0) := by
  decide
/-- V52. -/
theorem test_push_pc : seen (start [(5, 0x9999)] 0x0020 0xC580) (fun t => (memRead .S 0 t, t.rsp, t.pc))
    = some (0x0020, 1, 0x0021) := by
  decide
/-- V53, with the flag given: register write. -/
theorem test_pop_flag_false :
    let t := popWord false 2 (setRsp 2 (memWrite .S 1 3 (start [] 4 0xD002)))
    (readReg 2 t, t.rsp, t.sUpd, t.pc) = (3, 1, true, 5) := by
  decide
/-- V55, with the flag given: pc restored, and one more. -/
theorem test_pop_flag_true :
    let t := popWord true 6 (setRsp 3 (memWrite .S 2 0x40 (start [] 0x30 0xD006)))
    (readReg 6 t, t.rsp, t.sUpd, t.pc) = (0, 2, true, 0x41) := by
  decide
/-- V57: silent underflow, whatever the flag. -/
theorem test_pop_underflow :
    ∀ flag, (fun t : State => (t.rsp, t.sUpd)) (popWord flag 1 (start [] 0 0xD001)) = (0xFFFF, true) := by decide
/-- V61. -/
theorem test_jmp : seen (start [(1, 0x0010)] 5 0xE1FF) State.pc = some 0x0010 := by decide
/-- V63. -/
theorem test_jz_taken : seen (start [(1, 0x0010)] 5 0xF120) State.pc = some 0x0010 := by decide
/-- V76. -/
theorem test_jz_not_taken_wraps : seen (start [(1, 0x0010), (2, 1)] 0xFFFF 0xF120) State.pc = some 0 := by decide
/-- V65. -/
theorem test_jnz_taken : seen (start [(1, 0x0010), (2, 1)] 5 0xF121) State.pc = some 0x0010 := by decide
/-- V66 (S8b as 90_conflicts.md C2 corrects it). -/
theorem test_jnz_not_taken : seen (start [(1, 0x0010)] 5 0xF121) State.pc = some 6 := by decide
/-- V67, V68, V72, V74: condition 2 for given masks. -/
theorem test_condition_2 (ext : Nibble → Word → Bool) :
    (jumpCondWith 0x0001 ext 2 0x0001, jumpCondWith 0x0001 ext 2 0x8000, jumpCondWith 0x4000 ext 2 0x4000,
      jumpCondWith 0x0000 ext 2 0x8001) = (true, false, true, false) := by rfl
/-- V69, V70, V71, V73, V75: condition 3 for given masks. -/
theorem test_condition_3 (ext : Nibble → Word → Bool) :
    (jumpCondWith 0x0001 ext 3 0x8000, jumpCondWith 0x0001 ext 3 0x0001, jumpCondWith 0x0001 ext 3 0x0000,
      jumpCondWith 0x4000 ext 3 0x4000, jumpCondWith 0x0000 ext 3 0x8001) = (true, false, false, false, true) := by
  rfl
/-- V78: condition 12 asks `CJ_EXT_TAKEN`. -/
theorem test_condition_12 (mask b : Word) (ext : Nibble → Word → Bool) : jumpCondWith mask ext 12 b = ext 12 b := rfl
/-- V71: condition 3 needs a nonzero value, whatever the mask. -/
theorem test_jpos_zero_not_taken : seen (start [(1, 0x0010)] 5 0xF123) State.pc = some 6 := by rfl
/-- V74's consequence for zero: condition 2 fails for 0 whatever the mask. -/
theorem test_jneg_zero_not_taken : seen (start [(1, 0x0010)] 5 0xF122) State.pc
    = some (if ((0x0000#16 &&& signMask) != 0x0000#16) = true then 0x0010 else 6) := by
  show some (branch _ _ _).pc = _
  rw [branch_pc]
  rfl

/-! ### The host's ports -/

/-- S10: a token above 0xFFFF leaves 0x0000 and a warning. -/
theorem test_load_out_of_range :
    loadFrom 0 [['1', '0', '0', '5'], ['F', 'F', 'F', 'F', 'F'], ['E', '5', '0', '0']] []
      = .ok ([(0, 0x1005), (2, 0xE500)], [.valueOutOfRange 1]) := by rfl
/-- R152: tokens are separated by white space. -/
theorem test_tokens : tokens [' ', '1', '0', '\n', '\t', 'f', 'F'] = [['1', '0'], ['f', 'F']] := by decide
/-- R155. -/
theorem test_load_bad_token : loadFrom 0 [['1'], ['x']] [] = .error (.notHexadecimal 1) := by rfl
/-- Log 27: the failure of the text 'FFFFF x' comes alone. -/
theorem test_load_failure_alone :
    loadFrom 0 [['F', 'F', 'F', 'F', 'F'], ['x']] [] = .error (.notHexadecimal 1) := by rfl
/-- V92. -/
theorem test_snapshot_clears :
    let s := markData 0x0100 State.reset
    ((snapshot s).1.dUpd, (snapshot (snapshot s).2).1.dUpd, (snapshot s).2.mar) = (true, false, 0x0100) := by
  decide
/-- V93. -/
theorem test_step_zero (s : State) : stepMany 0 s = .next s := rfl

/-! ### Witnesses: the hypotheses of the statements can be met -/

theorem witness_EncodedInstructionDecodesToItself :
    (Instr.jcMid 4 1 2).wellFormed = true ∧ (Instr.jcMid 7 1 2).wellFormed = true ∧
    (Instr.jcHigh 8 1 2).wellFormed = true ∧ (Instr.jcHigh 15 1 2).wellFormed = true := by decide
theorem witness_IgnoredBitsDoNotMatter :
    (0x0103 : Word) &&& usedBits 0x0103 = 0x01F3 &&& usedBits 0x0103 := by decide
theorem witness_IgnoredBitsDoNotMatter_push_pc :
    (0xC080 : Word) &&& usedBits 0xC080 = 0xC5FF &&& usedBits 0xC080 := by decide
theorem witness_LengthFromOpcodeAlone : opOf 0x1007 = 0x1 ∧ opOf 0x0007 ≠ 0x1 ∧ opOf 0xF007 ≠ 0x1 := by decide
theorem witness_PlacedInstructionRuns :
    (Instr.ldi 7 0xABCD).wellFormed = true ∧ 16 * (Instr.ldi 7 0xABCD).length ≤ 32 ∧
    16 * (Instr.mov 3 1).length ≤ 16 := by decide
theorem witness_StepRunsDecodedInstruction :
    decode [memRead .I 0 (start [] 0 0xABCD1007), memRead .I 1 (start [] 0 0xABCD1007)] = .ok (.ldi 7 0xABCD, []) ∧
    decode (fetchWords (start [] 0xFFFF 0x0103)) = .ok (.mov 3 1, []) := by
  constructor <;> rfl
theorem witness_LdiLoadsNextWord :
    memRead .I (start [] 0xFFFF 0x55551007).pc (start [] 0xFFFF 0x55551007) = packWord 0x1 0 0 7 := by decide
theorem witness_PushWritesNextSlot (s : State) :
    (∃ a, Instr.push 1 = .push a ∧ readReg 1 s = readReg a s) ∧ (Instr.pushPc = .pushPc ∧ s.pc = s.pc) :=
  ⟨⟨1, rfl, rfl⟩, rfl, rfl⟩
theorem witness_PushPcThenPopReturns :
    let s := start [] 0x0020 0xC080
    ∃ t, exec .pushPc s = .next t ∧ (setPc 0x0100 t).rsp = t.rsp ∧
      memRead .S s.rsp (setPc 0x0100 t) = memRead .S s.rsp t :=
  ⟨_, rfl, rfl, rfl⟩
/-- V62: a jump to itself. -/
theorem witness_JmpReplacesPc_self :
    let s := start [(3, 7)] 7 0xE300
    memRead .I s.pc s = packWord 0xE 3 0 0 ∧ readReg (regOf 3) s = s.pc := by decide
theorem witness_ExtendedConditionJumps :
    (4 ≤ (4 : Nibble).toNat ∧ (7 : Nibble).toNat ≤ 7 ∧ 8 ≤ (8 : Nibble).toNat ∧ 8 ≤ (15 : Nibble).toNat) ∧
    (Instr.jcMid 4 1 2).wellFormed = true ∧ (Instr.jcHigh 15 1 2).wellFormed = true := by decide
theorem witness_SignTestIsNotBit15 : (0x4000 : Word).getLsbD 15 = false ∧ (0x0000 : Word).getLsbD 15 = false := by
  decide
theorem witness_OnlyListedOpcodesWrite :
    opOf 0xF120 ∈ [0x2, 0xC, 0xE, 0xF] ∧ opOf 0x4123 ∉ [0x2, 0x3] ∧ opOf 0xE100 ∉ [0xC, 0xD] ∧
    opOf 0x3154 ≠ 0x2 ∧ opOf 0xD002 ≠ 0xC := by decide
theorem witness_UpdatedFlagsRecordAccesses :
    (markData 0 State.reset).dUpd = true ∧ (markStack State.reset).sUpd = true := by decide
theorem witness_ObservationalStateIsHidden :
    SameVisible State.reset (markStack (markData 0x0100 State.reset)) ∧
    markStack (markData 0x0100 State.reset) ≠ State.reset := by
  refine ⟨⟨rfl, rfl, rfl, rfl, rfl, rfl⟩, by decide⟩
theorem witness_UnloadedMemoryOnlyAdvancesPc : ∀ a, memRead .I a (writeReg 0 5 State.reset) = 0 := fun _ => rfl
theorem witness_StepKeepsCanonicalBanks :
    let s := start [(1, 0xBEEF)] 2 0xC100
    s.wf = true ∧ ∃ t, step s = .next t := ⟨by decide, _, rfl⟩
theorem witness_CanonicalBanksAreEqual :
    Memory.wf (Memory.write [(5, 1)] 3 7) = true ∧ Memory.wf [(3, 7), (5, 1)] = true ∧
    ∀ a : Word, Memory.read (Memory.write [(5, 1)] 3 7) a.toNat = Memory.read [(3, 7), (5, 1)] a.toNat :=
  ⟨by decide, by decide, fun _ => rfl⟩
/-- Two lists that are not canonical read alike and differ: the hypotheses of the statement are needed. -/
theorem witness_CanonicalBanksAreEqual_needs_form :
    Memory.wf [(5, 1), (3, 7)] = false ∧ Memory.wf [(3, 0)] = false ∧ Memory.wf [(65536, 1)] = false ∧
    Memory.wf [(65535, 1)] = true := by decide
theorem witness_AluOperationsUndo : (3 : Reg) ≠ 2 := by decide
/-- S10's program text. -/
theorem witness_BootLoadsBankIOnly :
    ∃ s ws, boot ['1', '0', '0', '5', ' ', 'F', 'F', 'F', 'F', 'F', ' ', 'E', '5', '0', '0'] = .ok (s, ws) :=
  ⟨_, _, rfl⟩
/-- V90: an empty file. -/
theorem witness_HostRunKeepsProgram : boot [] = .ok (State.reset, []) := by rfl
/-- One value at the top of the range and one above it. -/
theorem witness_LoaderFillsBankI :
    ([['F', 'F', 'F', 'F'], ['1', '0', '0', '0', '0']].take 65536).map tokenValue = [0xFFFF, 0x10000].map some := by rfl
/-- V91: more tokens than bank I has words. -/
theorem witness_LoaderFillsBankI_overflow :
    ((List.replicate 65541 ['1']).take 65536).map tokenValue = (List.replicate 65536 1).map some ∧
    65536 < (List.replicate 65541 ['1']).length := by
  rw [List.take_replicate, List.map_replicate, List.map_replicate, List.length_replicate]
  exact ⟨rfl, by decide⟩
/-- R154: exactly as many tokens as bank I has words, the boundary at which nothing is left over. -/
theorem witness_LoaderFillsBankI_exactly_full :
    ((List.replicate 65536 ['1']).take 65536).map tokenValue = (List.replicate 65536 1).map some ∧
    ¬ 65536 < (List.replicate 65536 ['1']).length := by
  rw [List.take_replicate, List.map_replicate, List.map_replicate, List.length_replicate]
  exact ⟨rfl, by decide⟩
/-- R154: one token too many, and it is not hexadecimal. -/
theorem witness_LoaderFillsBankI_invalid_rest :
    ((List.replicate 65536 ['1'] ++ [['x']]).take 65536).map tokenValue = (List.replicate 65536 1).map some ∧
    65536 < (List.replicate 65536 ['1'] ++ [['x']]).length := by
  rw [List.take_append_of_le_length (by rw [List.length_replicate]), List.take_replicate, List.map_replicate,
    List.map_replicate, List.length_append, List.length_replicate]
  exact ⟨rfl, by decide⟩
theorem witness_LoaderFailsOnBadToken :
    (∀ t ∈ [['1'], ['A', 'b']], tokenValue t ≠ none) ∧ tokenValue ['x'] = none ∧ tokenValue ['0', 'x', '1'] = none ∧
    [['1'], ['A', 'b']].length < 65536 := by decide
theorem witness_LoaderFailsOnBadToken_text : boot ['x'] = .error (.notHexadecimal 0) := by rfl

end Sys2Proof.Tests
end

section
/-! Every step has a successor (00_scope.md R11). -/

namespace Sys2Proof.Machine

/-- R65, R130: each of the 22 arms of the dispatch is a meaning that answers a next state, whatever the operands, the state
and the values of the open parameters. -/
theorem exec_eq_next (i : Instr) (s : State) : ∃ t, exec i s = .next t := by
  cases i <;> exact ⟨_, rfl⟩

/-- R156: a step executes the instruction that the words at pc and pc + 1 of bank I decode to. -/
theorem step_eq_exec_decodeWords (s : State) :
    step s = exec (decodeWords (memRead .I s.pc s) (memRead .I (s.pc + 1) s)) s := rfl

theorem step_eq_next (s : State) : ∃ t, step s = .next t :=
  exec_eq_next (fetchInstr s) s

/-- Settles O9: every arm of the dispatch answers a next state, and a step is the dispatch at the fetched instruction. -/
theorem everyStepHasSuccessor : Obligations.EveryStepHasSuccessor :=
  ⟨fun s => ⟨step_eq_exec_decodeWords s, step_eq_next s⟩, exec_eq_next⟩

end Sys2Proof.Machine
end

section
/-! Runs of n steps (70_reset_and_hazards.md R157): how `stepMany` and `executes` go on after the first step. -/

namespace Sys2Proof.Machine

/-- A run of n + 1 steps is the first step and then a run of n. -/
theorem stepMany_succ {s t : State} (h : step s = .next t) (n : Nat) : stepMany (n + 1) s = stepMany n t := by
  simp only [stepMany, h]

theorem executes_succ {s t : State} (h : step s = .next t) (ops : List Nibble) (n : Nat) :
    executes ops (n + 1) s = (ops.contains (opOf (fetchWord s)) || executes ops n t) := by
  simp only [executes, h]

/-- R11, R157: every run answers a next state. -/
theorem stepMany_eq_next (n : Nat) : ∀ s, ∃ t, stepMany n s = .next t := by
  induction n with
  | zero => exact fun s => ⟨s, rfl⟩
  | succ n ih =>
    intro s
    obtain ⟨t, ht⟩ := step_eq_next s
    rw [stepMany_succ ht]
    exact ih t

end Sys2Proof.Machine
end

section
/-! `mar` and the updated flags are hidden from the program (10_state.md R31): every operation of the state gives
the same on two states that differ in nothing else, hence so does every meaning, every step and every run. -/

namespace Sys2Proof.Machine

section
variable {s s' : State} (h : SameVisible s s')
include h

/-! ### One rule per operation -/

theorem SameVisible.pc_eq : s'.pc = s.pc := by
  obtain ⟨-, hpc, -, -, -, -⟩ := h
  exact hpc

theorem SameVisible.rsp_eq : s'.rsp = s.rsp := by
  obtain ⟨-, -, hrsp, -, -, -⟩ := h
  exact hrsp

theorem SameVisible.readReg_eq (r : Reg) : readReg r s' = readReg r s := by
  obtain ⟨hx, -, -, -, -, -⟩ := h
  simp only [readReg, hx]

theorem SameVisible.bank_eq (B : Bank) : bank B s' = bank B s := by
  obtain ⟨-, -, -, hI, hD, hS⟩ := h
  cases B
  · exact hI
  · exact hD
  · exact hS

theorem SameVisible.memRead_eq (B : Bank) (a : Word) : memRead B a s' = memRead B a s := by
  simp only [memRead, h.bank_eq]

theorem SameVisible.setPc (v : Word) : SameVisible (setPc v s) (setPc v s') := by
  obtain ⟨hx, -, hrsp, hI, hD, hS⟩ := h
  exact ⟨hx, rfl, hrsp, hI, hD, hS⟩

theorem SameVisible.setRsp (v : Word) : SameVisible (setRsp v s) (setRsp v s') := by
  obtain ⟨hx, hpc, -, hI, hD, hS⟩ := h
  exact ⟨hx, hpc, rfl, hI, hD, hS⟩

theorem SameVisible.writeReg (r : Reg) (v : Word) : SameVisible (writeReg r v s) (writeReg r v s') := by
  obtain ⟨hx, hpc, hrsp, hI, hD, hS⟩ := h
  exact ⟨congrArg (·.set r.val v) hx, hpc, hrsp, hI, hD, hS⟩

theorem SameVisible.setBank (B : Bank) (m : Memory) : SameVisible (setBank B m s) (setBank B m s') := by
  obtain ⟨hx, hpc, hrsp, hI, hD, hS⟩ := h
  cases B
  · exact ⟨hx, hpc, hrsp, rfl, hD, hS⟩
  · exact ⟨hx, hpc, hrsp, hI, rfl, hS⟩
  · exact ⟨hx, hpc, hrsp, hI, hD, rfl⟩

theorem SameVisible.memWrite (B : Bank) (a v : Word) : SameVisible (memWrite B a v s) (memWrite B a v s') := by
  unfold Machine.memWrite
  rw [h.bank_eq]
  exact h.setBank B _

theorem SameVisible.advance (n : Word) : SameVisible (advance n s) (advance n s') := by
  rw [advance_eq, advance_eq, h.pc_eq]
  exact h.setPc _

/-- Whatever the two states get for `mar`, they differ in no more than before. -/
theorem SameVisible.markData (v v' : Word) : SameVisible (markData v s) (markData v' s') := h

theorem SameVisible.markStack : SameVisible (markStack s) (markStack s') := h

/-! ### The shared shapes of instructions -/

theorem SameVisible.putResult (y : Reg) (v : Word) : SameVisible (putResult y v s) (putResult y v s') :=
  (h.writeReg y v).advance 1

theorem SameVisible.aluUnary (f : Word → Word) (y a : Reg) :
    SameVisible (aluUnary f y a s) (aluUnary f y a s') := by
  unfold Machine.aluUnary
  rw [h.readReg_eq]
  exact h.putResult y _

theorem SameVisible.aluBinary (f : Word → Word → Word) (y a b : Reg) :
    SameVisible (aluBinary f y a b s) (aluBinary f y a b s') := by
  unfold Machine.aluBinary
  rw [h.readReg_eq, h.readReg_eq]
  exact h.putResult y _

theorem SameVisible.pushWord (v : Word) : SameVisible (pushWord v s) (pushWord v s') := by
  unfold Machine.pushWord pushSlot
  rw [h.rsp_eq]
  exact (((h.memWrite .S _ v).setRsp _).markStack).advance 1

theorem SameVisible.popWord (flag : Bool) (y : Reg) : SameVisible (popWord flag y s) (popWord flag y s') := by
  have hrsp := h.setRsp (topSlot s)
  unfold Machine.popWord
  rw [show topSlot s' = topSlot s by simp only [topSlot, h.rsp_eq]]
  simp only [setRsp_rsp, hrsp.memRead_eq]
  cases flag with
  | true => exact ((hrsp.setPc _).markStack).advance 1
  | false => exact ((hrsp.writeReg y _).markStack).advance 1

/-- A Conditional Jump tests and jumps to registers, so it goes the same way from both states. -/
theorem SameVisible.branch (c : Nibble) (a b : Reg) :
    SameVisible (branch (jumpCond c (readReg b s)) a s) (branch (jumpCond c (readReg b s')) a s') := by
  rw [h.readReg_eq]
  cases jumpCond c (readReg b s) with
  | true =>
    rw [Machine.branch, if_pos rfl, Machine.branch, if_pos rfl, h.readReg_eq]
    exact h.setPc _
  | false => exact h.advance 1

/-! ### Meanings, steps and runs -/

theorem SameVisible.execMov (y a : Reg) :
    ∃ t t', execMov y a s = .next t ∧ execMov y a s' = .next t' ∧ SameVisible t t' := by
  refine ⟨_, _, rfl, rfl, ?_⟩
  rw [h.readReg_eq]
  exact h.putResult y _

theorem SameVisible.execSt (a b : Reg) :
    ∃ t t', execSt a b s = .next t ∧ execSt a b s' = .next t' ∧ SameVisible t t' := by
  refine ⟨_, _, rfl, rfl, ?_⟩
  rw [show storeAddress b s' = storeAddress b s from h.readReg_eq b, h.readReg_eq]
  exact ((h.memWrite .D _ _).markData _ _).advance 1

theorem SameVisible.execLd (y a b : Reg) :
    ∃ t t', execLd y a b s = .next t ∧ execLd y a b s' = .next t' ∧ SameVisible t t' := by
  refine ⟨_, _, rfl, rfl, ?_⟩
  rw [show loadIndirect a s' = loadIndirect a s by simp only [loadIndirect, h.readReg_eq, h.memRead_eq]]
  exact ((h.writeReg y _).markData _ _).advance 1

theorem SameVisible.execPush (a : Reg) :
    ∃ t t', execPush a s = .next t ∧ execPush a s' = .next t' ∧ SameVisible t t' := by
  refine ⟨_, _, rfl, rfl, ?_⟩
  rw [show pushedReg a s' = pushedReg a s from h.readReg_eq a]
  exact h.pushWord _

theorem SameVisible.execPushPc :
    ∃ t t', execPushPc s = .next t ∧ execPushPc s' = .next t' ∧ SameVisible t t' := by
  refine ⟨_, _, rfl, rfl, ?_⟩
  rw [show pushedPc s' = pushedPc s from h.pc_eq]
  exact h.pushWord _

theorem SameVisible.execJmp (a : Reg) :
    ∃ t t', execJmp a s = .next t ∧ execJmp a s' = .next t' ∧ SameVisible t t' := by
  refine ⟨_, _, rfl, rfl, ?_⟩
  rw [h.readReg_eq]
  exact h.setPc _

theorem SameVisible.exec (i : Instr) :
    ∃ t t', exec i s = .next t ∧ exec i s' = .next t' ∧ SameVisible t t' := by
  cases i with
  | mov y a => exact h.execMov y a
  | ldi y imm => exact ⟨_, _, rfl, rfl, (h.writeReg y imm).advance 2⟩
  | st a b => exact h.execSt a b
  | ld y a b => exact h.execLd y a b
  | bitOr y a b => exact ⟨_, _, rfl, rfl, h.aluBinary _ y a b⟩
  | bitNot y a => exact ⟨_, _, rfl, rfl, h.aluUnary _ y a⟩
  | bitAnd y a b => exact ⟨_, _, rfl, rfl, h.aluBinary _ y a b⟩
  | bitXor y a b => exact ⟨_, _, rfl, rfl, h.aluBinary _ y a b⟩
  | add y a b => exact ⟨_, _, rfl, rfl, h.aluBinary _ y a b⟩
  | sub y a b => exact ⟨_, _, rfl, rfl, h.aluBinary _ y a b⟩
  | lnot y a => exact ⟨_, _, rfl, rfl, h.aluUnary _ y a⟩
  | shr y a => exact ⟨_, _, rfl, rfl, h.aluUnary _ y a⟩
  | push a => exact h.execPush a
  | pushPc => exact h.execPushPc
  | pop y mid => exact ⟨_, _, rfl, rfl, h.popWord _ y⟩
  | jmp a => exact h.execJmp a
  | jz a b => exact ⟨_, _, rfl, rfl, h.branch 0 a b⟩
  | jnz a b => exact ⟨_, _, rfl, rfl, h.branch 1 a b⟩
  | jneg a b => exact ⟨_, _, rfl, rfl, h.branch 2 a b⟩
  | jpos a b => exact ⟨_, _, rfl, rfl, h.branch 3 a b⟩
  | jcMid c a b => exact ⟨_, _, rfl, rfl, h.branch c a b⟩
  | jcHigh c a b => exact ⟨_, _, rfl, rfl, h.branch c a b⟩

/-- Both states fetch the same instruction, so a step keeps the relation. -/
theorem SameVisible.step : ∃ t t', step s = .next t ∧ step s' = .next t' ∧ SameVisible t t' := by
  have hfetch : fetchInstr s' = fetchInstr s := fetchInstr_congr h.pc_eq (h.bank_eq .I)
  unfold Machine.step
  rw [hfetch]
  exact h.exec (fetchInstr s)

end

/-- Settles O30, by induction on the number of steps: every step keeps the relation between the two runs. -/
theorem observationalStateIsHidden : Obligations.ObservationalStateIsHidden := by
  unfold Obligations.ObservationalStateIsHidden
  intro n
  induction n with
  | zero => exact fun s s' h => ⟨s, s', rfl, rfl, h⟩
  | succ n ih =>
    intro s s' h
    obtain ⟨t, t', ht, ht', htt'⟩ := h.step
    rw [stepMany_succ ht, stepMany_succ ht']
    exact ih t t' htt'

end Sys2Proof.Machine
end

section
/-! What a step can do, told from the fetched word alone (30_encoding.md R65, R66): one case per shape of the
meanings. The facts about pc, the writers of each piece of state and the updated flags all follow from it. -/

namespace Sys2Proof.Machine

/-! ### Decoded Pops and Conditional Jumps -/

/-- R64, R67: the Pop that a word decodes to reads its flag from that word. -/
theorem popInstrWord_fields {w : Word} (h : opOf w = 0xD) : popInstrWord (regOf (fieldY w)) (popMid w) = w := by
  obtain ⟨op, a, b, y, rfl⟩ := exists_packWord w
  rw [opOf_packWord] at h
  rw [fieldY_packWord, popMid_packWord, popInstrWord_eq, regBits_regOf, h]

/-- R122: whichever constructor a condition field decodes to, it branches on that condition. -/
theorem exec_decodeJump (c : Nibble) (a b : Reg) (s : State) :
    exec (decodeJump c a b) s = .next (branch (jumpCond c (readReg b s)) a s) := by
  have of_toNat {k : Nibble} (h : c.toNat = k.toNat) : c = k := BitVec.eq_of_toNat_eq h
  unfold decodeJump
  split
  · next h => cases of_toNat (k := 0) h; rfl
  · next h => cases of_toNat (k := 1) h; rfl
  · next h => cases of_toNat (k := 2) h; rfl
  · next h => cases of_toNat (k := 3) h; rfl
  all_goals rfl

/-! ### The shapes of a step -/

/-- `StepShape s w t`: executing the word `w` in `s` may lead to `t`. Left open are the value that Move, the ALU and
Load Immediate write to their register, and what a Load leaves in `mar`; everything else is said. -/
inductive StepShape (s : State) (w : Word) : State → Prop
  /-- R80, R90–R97: Move and the ALU instructions. -/
  | result (v : Word) (hop : opOf w ∉ [0x1#4, 0x2#4, 0x3#4, 0xC#4, 0xD#4, 0xE#4, 0xF#4]) :
      StepShape s w (putResult (regOf (fieldY w)) v s)
  /-- R81. -/
  | literal (v : Word) (hop : opOf w = 0x1) : StepShape s w (advance 2 (writeReg (regOf (fieldY w)) v s))
  /-- R82. -/
  | store (hop : opOf w = 0x2) :
      StepShape s w (advance 1 (markData (readReg (regOf (fieldB w)) s)
        (memWrite .D (readReg (regOf (fieldB w)) s) (readReg (regOf (fieldA w)) s) s)))
  /-- R83; `m` is what `mar` gets. -/
  | load (m : Word) (hop : opOf w = 0x3) :
      StepShape s w (advance 1 (markData m (writeReg (regOf (fieldY w)) (loadIndirect (regOf (fieldA w)) s) s)))
  /-- R110. -/
  | push (hop : opOf w = 0xC) :
      StepShape s w (pushWord (if pushFlag w then s.pc else readReg (regOf (fieldA w)) s) s)
  /-- R111. -/
  | pop (hop : opOf w = 0xD) : StepShape s w (popWord (popFlag w) (regOf (fieldY w)) s)
  /-- R120. -/
  | jump (hop : opOf w = 0xE) : StepShape s w (setPc (readReg (regOf (fieldA w)) s) s)
  /-- R122. -/
  | branch (hop : opOf w = 0xF) :
      StepShape s w (branch (jumpCond (fieldY w) (readReg (regOf (fieldB w)) s)) (regOf (fieldA w)) s)

/-- Every decoded word acts in the shape of its opcode. -/
theorem exec_decodeWords_shape (w lit : Word) (s : State) :
    ∃ t, exec (decodeWords w lit) s = .next t ∧ StepShape s w t := by
  have of_toNat {k : Nibble} (h : (opOf w).toNat = k.toNat) : opOf w = k := BitVec.eq_of_toNat_eq h
  have result {k : Nibble} (h : (opOf w).toNat = k.toNat) (hk : k ∉ [0x1, 0x2, 0x3, 0xC, 0xD, 0xE, 0xF])
      (v : Word) : StepShape s w (putResult (regOf (fieldY w)) v s) := .result v (of_toNat h ▸ hk)
  unfold decodeWords
  split
  case h_1 h => exact ⟨_, rfl, result (k := 0x0) h (by decide) _⟩
  case h_2 h => exact ⟨_, rfl, .literal lit (of_toNat h)⟩
  case h_3 h =>
    refine ⟨_, rfl, ?_⟩
    simp only [storeAddress, readReg_memWrite]
    exact .store (of_toNat h)
  case h_4 h => exact ⟨_, rfl, .load _ (of_toNat h)⟩
  case h_5 h => exact ⟨_, rfl, result (k := 0x4) h (by decide) _⟩
  case h_6 h => exact ⟨_, rfl, result (k := 0x5) h (by decide) _⟩
  case h_7 h => exact ⟨_, rfl, result (k := 0x6) h (by decide) _⟩
  case h_8 h => exact ⟨_, rfl, result (k := 0x7) h (by decide) _⟩
  case h_9 h => exact ⟨_, rfl, result (k := 0x8) h (by decide) _⟩
  case h_10 h => exact ⟨_, rfl, result (k := 0x9) h (by decide) _⟩
  case h_11 h => exact ⟨_, rfl, result (k := 0xA) h (by decide) _⟩
  case h_12 h => exact ⟨_, rfl, result (k := 0xB) h (by decide) _⟩
  case h_13 h =>
    have push := StepShape.push (s := s) (of_toNat (k := 0xC) h)
    cases hflag : pushFlag w <;> rw [hflag] at push <;> exact ⟨_, rfl, push⟩
  case h_14 h =>
    have pop := StepShape.pop (s := s) (of_toNat (k := 0xD) h)
    refine ⟨_, rfl, ?_⟩
    rwa [popInstrWord_fields (of_toNat h)]
  case h_15 h => exact ⟨_, rfl, .jump (of_toNat h)⟩
  case h_16 =>
    have hlt := (opOf w).isLt
    simp only [imp_false] at *
    have hop : (opOf w).toNat = 15 := by omega
    exact ⟨_, exec_decodeJump .., .branch (of_toNat hop)⟩

theorem step_shape (s : State) : ∃ t, step s = .next t ∧ StepShape s (fetchWord s) t :=
  exec_decodeWords_shape (fetchWord s) (fetchLiteral s) s

end Sys2Proof.Machine
end

section
/-! How a step changes pc (10_state.md R23). -/

namespace Sys2Proof.Machine

theorem StepShape.pc_toNat {s t : State} {w : Word} (h : StepShape s w t) :
    t.pc.toNat =
      if opOf w = 0x1 then (s.pc.toNat + 2) % 65536
      else if opOf w = 0xD ∧ popFlag w = true then ((memRead .S (s.rsp - 1) s).toNat + 1) % 65536
      else if opOf w = 0xE then (readReg (regOf (fieldA w)) s).toNat
      else if opOf w = 0xF ∧ jumpCond (fieldY w) (readReg (regOf (fieldB w)) s) = true then
        (readReg (regOf (fieldA w)) s).toNat
      else (s.pc.toNat + 1) % 65536 := by
  cases h with
  | result v hop =>
    simp only [List.mem_cons, List.not_mem_nil, or_false, not_or] at hop
    simp [hop, BitVec.toNat_add]
  | literal v hop => simp [hop, BitVec.toNat_add]
  | store hop => simp [hop, BitVec.toNat_add]
  | load m hop => simp [hop, BitVec.toNat_add]
  | push hop => simp [hop, BitVec.toNat_add]
  | pop hop => cases hflag : popFlag w <;> simp [hop, BitVec.toNat_add]
  | jump hop => simp [hop]
  | branch hop =>
    cases hcond : jumpCond (fieldY w) (readReg (regOf (fieldB w)) s) <;> simp [hop, BitVec.toNat_add]

/-- Settles O27, from the shapes of a step. -/
theorem pcUpdatePerOpcode : Obligations.PcUpdatePerOpcode := by
  unfold Obligations.PcUpdatePerOpcode
  intro s
  obtain ⟨t, ht, hshape⟩ := step_shape s
  exact ⟨t, ht, hshape.pc_toNat⟩

end Sys2Proof.Machine
end

section
/-! Which opcodes write which piece of state (10_state.md R28). -/

namespace Sys2Proof.Machine

section
variable {s t : State} {w : Word} (h : StepShape s w t)
include h

/-- R66: no register but the one that the `rY` field names is written. -/
theorem StepShape.readReg_eq_of_ne {r : Reg} (hr : r ≠ regOf (fieldY w)) : readReg r t = readReg r s := by
  cases h <;> simp [hr]

theorem StepShape.regsKept (hop : opOf w ∈ [0x2, 0xC, 0xE, 0xF]) : RegsKept s t := by
  intro r
  cases h with
  | result v hnot => simp_all
  | literal v hop' => simp [hop'] at hop
  | store => simp
  | load m hop' => simp [hop'] at hop
  | push => simp
  | pop hop' => simp [hop'] at hop
  | jump => simp
  | branch => simp

/-- R24: `rsp` moves with Push and Pop only. -/
theorem StepShape.rsp_eq :
    t.rsp = if opOf w = 0xC then s.rsp + 1 else if opOf w = 0xD then s.rsp - 1 else s.rsp := by
  cases h with
  | result v hop =>
    simp only [List.mem_cons, List.not_mem_nil, or_false, not_or] at hop
    simp [hop]
  | _ => simp [*]

/-- R25: only Store and Load write `mar`. -/
theorem StepShape.mar_eq (hop : opOf w ∉ [0x2, 0x3]) : t.mar = s.mar := by
  cases h with
  | store hop' => simp [hop'] at hop
  | load m hop' => simp [hop'] at hop
  | _ => simp

/-- R26: Store and Load set `dUpd`; nothing clears it. -/
theorem StepShape.dUpd_eq : t.dUpd = (s.dUpd || [0x2, 0x3].contains (opOf w)) := by
  cases h with
  | result v hop =>
    simp only [List.mem_cons, List.not_mem_nil, or_false, not_or] at hop
    simp [hop]
  | _ => simp [*]

/-- R26: Push and Pop set `sUpd`; nothing clears it. -/
theorem StepShape.sUpd_eq : t.sUpd = (s.sUpd || [0xC, 0xD].contains (opOf w)) := by
  cases h with
  | result v hop =>
    simp only [List.mem_cons, List.not_mem_nil, or_false, not_or] at hop
    simp [hop]
  | _ => simp [*]

/-- R42: Store writes bank D, Push writes bank S, and there is no other write to a bank. -/
theorem StepShape.bankKept {B : Bank} (hD : B = .D → opOf w ≠ 0x2) (hS : B = .S → opOf w ≠ 0xC) :
    BankKept B s t := by
  intro a
  cases h with
  | store hop =>
    have hB : B ≠ .D := fun hB => hD hB hop
    simp [hB]
  | push hop =>
    have hB : B ≠ .S := fun hB => hS hB hop
    simp [hB]
  | _ => simp

end

/-- Settles O28: one lemma for each piece of state, from the shapes of a step. -/
theorem onlyListedOpcodesWrite : Obligations.OnlyListedOpcodesWrite := by
  unfold Obligations.OnlyListedOpcodesWrite
  intro s
  obtain ⟨t, ht, hshape⟩ := step_shape s
  have hdUpd (hop : opOf (fetchWord s) ∉ [0x2, 0x3]) : t.dUpd = s.dUpd := by
    rw [hshape.dUpd_eq, List.contains_eq_mem, decide_eq_false hop, Bool.or_false]
  have hsUpd (hop : opOf (fetchWord s) ∉ [0xC, 0xD]) : t.sUpd = s.sUpd := by
    rw [hshape.sUpd_eq, List.contains_eq_mem, decide_eq_false hop, Bool.or_false]
  exact ⟨t, ht, hshape.regsKept, fun r => hshape.readReg_eq_of_ne, hshape.rsp_eq,
    fun hop => ⟨hshape.mar_eq hop, hdUpd hop⟩, hsUpd,
    hshape.bankKept (by simp) (by simp), fun hop => hshape.bankKept (fun _ => hop) (by simp),
    fun hop => hshape.bankKept (by simp) (fun _ => hop)⟩

end Sys2Proof.Machine
end

section
/-! The updated flags over a run (10_state.md R26). -/

namespace Sys2Proof.Machine

/-- A flag that each step sets exactly for the opcodes `ops`, and never clears, is set after a run exactly if it was
set before or the run executed one of them. -/
theorem stepMany_flag {flag : State → Bool} {ops : List Nibble}
    (hstep : ∀ {s t : State}, StepShape s (fetchWord s) t →
      flag t = (flag s || ops.contains (opOf (fetchWord s))))
    (n : Nat) : ∀ s t, stepMany n s = .next t → flag t = (flag s || executes ops n s) := by
  induction n with
  | zero =>
    intro s t h
    cases h
    simp [executes]
  | succ n ih =>
    intro s u h
    obtain ⟨t, ht, hshape⟩ := step_shape s
    rw [stepMany_succ ht] at h
    rw [ih t u h, hstep hshape, executes_succ ht, Bool.or_assoc]

theorem stepMany_dUpd {n : Nat} {s t : State} (h : stepMany n s = .next t) :
    t.dUpd = (s.dUpd || executes [0x2, 0x3] n s) :=
  stepMany_flag (flag := State.dUpd) StepShape.dUpd_eq n s t h

theorem stepMany_sUpd {n : Nat} {s t : State} (h : stepMany n s = .next t) :
    t.sUpd = (s.sUpd || executes [0xC, 0xD] n s) :=
  stepMany_flag (flag := State.sUpd) StepShape.sUpd_eq n s t h

/-- Settles O29: the law of a flag over a run, from the state a snapshot leaves, where both flags are clear, and from
any state. -/
theorem updatedFlagsRecordAccesses : Obligations.UpdatedFlagsRecordAccesses := by
  unfold Obligations.UpdatedFlagsRecordAccesses
  intro n s
  obtain ⟨t, ht⟩ := stepMany_eq_next n (snapshot s).2
  obtain ⟨u, hu⟩ := stepMany_eq_next n s
  refine ⟨⟨t, ht, ?_, ?_⟩, u, hu, ?_, ?_⟩
  · exact stepMany_dUpd ht
  · exact stepMany_sUpd ht
  · intro hset
    rw [stepMany_dUpd hu, hset, Bool.true_or]
  · intro hset
    rw [stepMany_sUpd hu, hset, Bool.true_or]

end Sys2Proof.Machine
end

section
/-! The state at reset (10_state.md R32, R33). -/

namespace Sys2Proof.Machine

@[simp] theorem readReg_reset (r : Reg) : readReg r State.reset = 0 := by
  simp [readReg, State.reset]

@[simp] theorem bank_reset (B : Bank) : bank B State.reset = [] := by
  cases B <;> rfl

@[simp] theorem memRead_reset (B : Bank) (a : Word) : memRead B a State.reset = 0 := by
  rw [memRead, bank_reset, Memory.read_nil]
  rfl

/-- Settles O37: at reset the registers are 0 and the banks list no cell. -/
theorem resetIsZero : Obligations.ResetIsZero :=
  ⟨readReg_reset, rfl, rfl, memRead_reset⟩

end Sys2Proof.Machine
end

section
/-! The canonical form of the banks over a step (20_memory.md R40, R41). -/

namespace Sys2Proof.Machine

/-- A Store writes one word of D and a Push one word of S, inside the bank; no other step changes a bank. -/
theorem StepShape.wf {s t : State} {w : Word} (h : StepShape s w t) (hs : s.wf = true) : t.wf = true := by
  cases h with
  | store => exact State.wf_memWrite .D _ _ s hs
  | push => exact pushWord_wf _ s hs
  | _ => simpa using hs

/-- Settles O33, from the shapes of a step. -/
theorem stepKeepsCanonicalBanks : Obligations.StepKeepsCanonicalBanks := by
  unfold Obligations.StepKeepsCanonicalBanks
  intro s t hs ht
  obtain ⟨t', ht', hshape⟩ := step_shape s
  cases ht'.symm.trans ht
  exact hshape.wf hs

end Sys2Proof.Machine
end

section
/-! A word of a bank reads what the latest write to it wrote (20_memory.md R42, R46, R50). -/

namespace Sys2Proof.Machine

/-! ### What a step writes, told from the fetched word -/

theorem wordWritten_of_store {s : State} (hop : opOf (fetchWord s) = 0x2) (B : Bank) (a : Word) :
    wordWritten B a s = if B = .D ∧ a = readReg (regOf (fieldB (fetchWord s))) s then
      some (readReg (regOf (fieldA (fetchWord s))) s) else none := by
  have hfetch : fetchInstr s = .st (regOf (fieldA (fetchWord s))) (regOf (fieldB (fetchWord s))) := by
    simp [fetchInstr, decodeWords, hop]
  cases B <;> simp [wordWritten, writeOf, hfetch, eq_comm]

theorem wordWritten_of_push {s : State} (hop : opOf (fetchWord s) = 0xC) (B : Bank) (a : Word) :
    wordWritten B a s = if B = .S ∧ a = s.rsp then
      some (if pushFlag (fetchWord s) then s.pc else readReg (regOf (fieldA (fetchWord s))) s) else none := by
  cases hflag : pushFlag (fetchWord s) with
  | true =>
    have hfetch : fetchInstr s = .pushPc := by simp [fetchInstr, decodeWords, hop, hflag]
    cases B <;> simp [wordWritten, writeOf, hfetch, eq_comm]
  | false =>
    have hfetch : fetchInstr s = .push (regOf (fieldA (fetchWord s))) := by
      simp [fetchInstr, decodeWords, hop, hflag]
    cases B <;> simp [wordWritten, writeOf, hfetch, eq_comm]

/-- R65: a word decodes to an instruction of its own opcode. -/
theorem opcode_decodeWords (w lit : Word) : (decodeWords w lit).opcode = opOf w := by
  have opcode_of_toNat {k : Nibble} (h : (opOf w).toNat = k.toNat) : k = opOf w := (BitVec.eq_of_toNat_eq h).symm
  unfold decodeWords
  split
  case h_13 h => cases pushFlag w <;> exact opcode_of_toNat h
  case h_16 =>
    have hlt := (opOf w).isLt
    simp only [imp_false] at *
    have hop : (opOf w).toNat = 15 := by omega
    unfold decodeJump
    split <;> exact opcode_of_toNat hop
  all_goals exact opcode_of_toNat ‹_›

/-- R42: a word that is neither a Store nor a Push writes to no bank. -/
theorem wordWritten_eq_none {s : State} (hD : opOf (fetchWord s) ≠ 0x2) (hS : opOf (fetchWord s) ≠ 0xC)
    (B : Bank) (a : Word) : wordWritten B a s = none := by
  have hopcode : opOf (fetchWord s) = (fetchInstr s).opcode := (opcode_decodeWords ..).symm
  have hnone : writeOf B s = none := by
    unfold writeOf
    split
    case h_1 hfetch => exact absurd (hopcode.trans (congrArg Instr.opcode hfetch)) hD
    case h_2 hfetch => exact absurd (hopcode.trans (congrArg Instr.opcode hfetch)) hS
    case h_3 hfetch => exact absurd (hopcode.trans (congrArg Instr.opcode hfetch)) hS
    case h_4 => rfl
  simp only [wordWritten, hnone]

/-! ### Steps and runs -/

/-- R46: after a step a word reads what the step wrote there, or what it read before. -/
theorem StepShape.memRead_eq {s t : State} (h : StepShape s (fetchWord s) t) (B : Bank) (a : Word) :
    memRead B a t = (wordWritten B a s).getD (memRead B a s) := by
  cases h with
  | result v hop =>
    simp only [List.mem_cons, List.not_mem_nil, or_false, not_or] at hop
    simp [wordWritten_eq_none, hop]
  | store hop =>
    rw [wordWritten_of_store hop, advance_eq, memRead_setPc, memRead_markData, memRead_memWrite, ← ite_and]
    split <;> rfl
  | push hop =>
    rw [wordWritten_of_push hop, pushWord_mem, ← ite_and]
    split <;> rfl
  | _ => simp [wordWritten_eq_none, *]

/-- The latest write of a run of n + 1 steps is the latest of the last n, or that of the first step. -/
theorem latestWritten_succ {s t : State} (h : step s = .next t) (B : Bank) (a : Word) (n : Nat) :
    latestWritten B a (n + 1) s = (latestWritten B a n t).or (wordWritten B a s) := by
  simp only [latestWritten, h]
  cases latestWritten B a n t <;> rfl

theorem stepMany_memRead (B : Bank) (a : Word) (n : Nat) :
    ∀ s t, stepMany n s = .next t → memRead B a t = (latestWritten B a n s).getD (memRead B a s) := by
  induction n with
  | zero =>
    intro s t h
    cases h
    rfl
  | succ n ih =>
    intro s u h
    obtain ⟨t, ht, hshape⟩ := step_shape s
    rw [stepMany_succ ht] at h
    rw [ih t u h, hshape.memRead_eq, latestWritten_succ ht, Option.getD_or]

/-- Settles O31, by induction on the number of steps: the law of one step, and the latest write after the first. -/
theorem readsSeeLatestWrite : Obligations.ReadsSeeLatestWrite := by
  unfold Obligations.ReadsSeeLatestWrite
  intro B a n s
  obtain ⟨t, ht⟩ := stepMany_eq_next n s
  exact ⟨t, ht, stepMany_memRead B a n s t ht⟩

end Sys2Proof.Machine
end

section
/-! The host's requests after the load (70_reset_and_hazards.md R159, R160): all are served, and none writes bank I
(20_memory.md R53). -/

namespace Sys2Proof.Machine

theorem BankKept.trans {B : Bank} {s t u : State} (hst : BankKept B s t) (htu : BankKept B t u) : BankKept B s u :=
  fun a => (htu a).trans (hst a)

/-- R42: no step of a run writes bank I. -/
theorem latestWritten_bankI (a : Word) (n : Nat) : ∀ s, latestWritten .I a n s = none := by
  induction n with
  | zero => exact fun _ => rfl
  | succ n ih =>
    intro s
    obtain ⟨t, ht⟩ := step_eq_next s
    rw [latestWritten_succ ht, ih t]
    rfl

theorem stepMany_bankI_kept {n : Nat} {s t : State} (h : stepMany n s = .next t) : BankKept .I s t := by
  intro a
  rw [stepMany_memRead .I a n s t h, latestWritten_bankI, Option.getD_none]

theorem serve_step {n : Nat} {s t : State} (h : stepMany n s = .next t) (rs : List Request) :
    serve (.step n :: rs) s = serve rs t := by
  simp only [serve, h]

theorem serve_snapshot {rs : List Request} {s t : State} {views : List Snapshot}
    (h : serve rs (clearUpdated s) = .next (t, views)) :
    serve (.snapshot :: rs) s = .next (t, viewOf s :: views) := by
  simp only [serve, snapshot, h]

theorem serve_keeps_bankI (rs : List Request) :
    ∀ s, ∃ t views, serve rs s = .next (t, views) ∧ BankKept .I s t := by
  induction rs with
  | nil => exact fun s => ⟨s, [], rfl, fun _ => rfl⟩
  | cons r rs ih =>
    intro s
    cases r with
    | step n =>
      obtain ⟨t, ht⟩ := stepMany_eq_next n s
      obtain ⟨u, views, hserve, hkept⟩ := ih t
      exact ⟨u, views, (serve_step ht rs).trans hserve, (stepMany_bankI_kept ht).trans hkept⟩
    | snapshot =>
      obtain ⟨t, views, hserve, hkept⟩ := ih (clearUpdated s)
      exact ⟨t, viewOf s :: views, serve_snapshot hserve, BankKept.trans (fun a => clearUpdated_mem .I a s) hkept⟩

/-- R160: the run after a successful load serves the requests from the state that the load gave. -/
theorem hostRun_of_boot {text : List Char} {s : State} {ws : List LoadWarning} (h : boot text = .ok (s, ws))
    (rs : List Request) : hostRun text rs = .ok (serve rs s) := by
  simp only [hostRun, h]

/-- Settles O44, by induction on the requests. -/
theorem hostRunKeepsProgram : Obligations.HostRunKeepsProgram := by
  unfold Obligations.HostRunKeepsProgram
  refine ⟨serve_keeps_bankI, ?_⟩
  intro text s ws rs hboot
  obtain ⟨t, views, hserve, hkept⟩ := serve_keeps_bankI rs s
  exact ⟨t, views, by rw [hostRun_of_boot hboot, hserve], hkept⟩

end Sys2Proof.Machine
end

section
/-! Banks in canonical form that read alike are the same list (20_memory.md R40, R41). -/

namespace Sys2Proof.Machine

/-- Below its first address a bank in canonical form lists nothing. -/
theorem Memory.read_of_lt (m : Memory) : ∀ {lo a : Nat}, Memory.wfFrom lo m = true → a < lo →
    Memory.read m a = Memory.unlisted := by
  induction m with
  | nil => exact fun _ _ => rfl
  | cons c m ih =>
    intro lo a hm ha
    obtain ⟨k, v⟩ := c
    obtain ⟨hlo, -, -, htail⟩ := (Memory.wfFrom_cons ..).mp hm
    rw [Memory.read_cons, if_neg (by omega)]
    exact ih htail (by omega)

/-- The first cell of a bank in canonical form has the lowest address that does not read as an unlisted one. -/
theorem Memory.head_le_of_read {lo k a : Nat} {v : Word} {m : Memory} (hm : Memory.wfFrom lo ((k, v) :: m) = true)
    (ha : Memory.read ((k, v) :: m) a ≠ Memory.unlisted) : k ≤ a := by
  by_contra hlt
  obtain ⟨-, hk, hv, htail⟩ := (Memory.wfFrom_cons ..).mp hm
  exact ha (Memory.read_of_lt _ ((Memory.wfFrom_cons ..).mpr ⟨le_refl k, hk, hv, htail⟩) (by omega))

/-- Under the same first cell, canonical banks that read alike have tails that read alike. -/
theorem Memory.read_tail_eq {k a : Nat} {v : Word} {m m' : Memory} (htail : Memory.wfFrom (k + 1) m = true)
    (htail' : Memory.wfFrom (k + 1) m' = true)
    (hread : Memory.read ((k, v) :: m) a = Memory.read ((k, v) :: m') a) : Memory.read m a = Memory.read m' a := by
  by_cases hka : k = a
  · rw [Memory.read_of_lt m htail (by omega), Memory.read_of_lt m' htail' (by omega)]
  · simpa [Memory.read_cons, hka] using hread

theorem Memory.eq_of_read_eq (m : Memory) : ∀ {lo : Nat} {m' : Memory},
    Memory.wfFrom lo m = true → Memory.wfFrom lo m' = true →
    (∀ a < bankSize, Memory.read m a = Memory.read m' a) → m = m' := by
  induction m with
  | nil =>
    intro lo m' _ hm' hread
    cases m' with
    | nil => rfl
    | cons c m' =>
      obtain ⟨k, v⟩ := c
      obtain ⟨-, hk, hv, -⟩ := (Memory.wfFrom_cons ..).mp hm'
      have hhead := hread k hk
      rw [Memory.read_nil, Memory.read_cons, if_pos rfl] at hhead
      exact absurd hhead.symm hv
  | cons c m ih =>
    intro lo m' hm hm' hread
    obtain ⟨k, v⟩ := c
    obtain ⟨-, hk, hv, htail⟩ := (Memory.wfFrom_cons ..).mp hm
    have hhead : Memory.read m' k = v := by rw [← hread k hk, Memory.read_cons, if_pos rfl]
    cases m' with
    | nil => exact absurd hhead.symm hv
    | cons c' m' =>
      obtain ⟨k', v'⟩ := c'
      obtain ⟨-, hk', hv', htail'⟩ := (Memory.wfFrom_cons ..).mp hm'
      have hhead' : Memory.read ((k, v) :: m) k' = v' := by rw [hread k' hk', Memory.read_cons, if_pos rfl]
      obtain rfl : k = k' := le_antisymm (Memory.head_le_of_read hm (hhead' ▸ hv'))
        (Memory.head_le_of_read hm' (hhead ▸ hv))
      obtain rfl : v' = v := by simpa [Memory.read_cons] using hhead
      rw [ih htail htail' fun a ha => Memory.read_tail_eq htail htail' (hread a ha)]

/-- Settles O34: the addresses inside a bank are the words. -/
theorem canonicalBanksAreEqual : Obligations.CanonicalBanksAreEqual := by
  unfold Obligations.CanonicalBanksAreEqual
  intro m m' hm hm' hread
  refine Memory.eq_of_read_eq m hm hm' fun a ha => ?_
  have hword : (BitVec.ofNat 16 a).toNat = a := Nat.mod_eq_of_lt ha
  rw [← hword]
  exact hread _

end Sys2Proof.Machine
end

section
/-! The load of a program (70_reset_and_hazards.md R152) and the canonical form. -/

namespace Sys2Proof.Machine

/-- R152–R155: a load that succeeds either finds the bank full, or places its first token and goes on. -/
theorem loadFrom_cons_eq_ok {k : Nat} {token : List Char} {ts : List (List Char)} {m m' : Memory}
    {ws : List LoadWarning} (h : loadFrom k (token :: ts) m = .ok (m', ws)) :
    (bankSize ≤ k ∧ m' = m ∧ ws = [.overflow]) ∨
    (k < bankSize ∧ ∃ n ws', tokenValue token = some n ∧
      loadFrom (k + 1) ts (Memory.write m k (loadedWord n)) = .ok (m', ws') ∧ ws = loadWarning k n ++ ws') := by
  unfold loadFrom at h
  split at h
  · next hfull =>
    cases h
    exact .inl ⟨hfull, rfl, rfl⟩
  · next hroom =>
    split at h
    · cases h
    · next n hvalue =>
      split at h
      · cases h
      · next hrest =>
        cases h
        exact .inr ⟨by omega, n, _, hvalue, hrest, rfl⟩

theorem loadFrom_wf (ts : List (List Char)) : ∀ {k : Nat} {m m' : Memory} {ws : List LoadWarning},
    loadFrom k ts m = .ok (m', ws) → m.wf = true → m'.wf = true := by
  induction ts with
  | nil =>
    intro k m m' ws h hm
    cases h
    exact hm
  | cons token ts ih =>
    intro k m m' ws h hm
    obtain ⟨-, rfl, -⟩ | ⟨hk, n, ws', -, hrest, -⟩ := loadFrom_cons_eq_ok h
    · exact hm
    · exact ih hrest (Memory.wf_write m k _ hk hm)

/-- R150, R152: a load that succeeds gives the reset state with what the loader left in bank I. -/
theorem boot_eq_ok {text : List Char} {s : State} {ws : List LoadWarning} (h : boot text = .ok (s, ws)) :
    ∃ m, loadFrom 0 (tokens text) [] = .ok (m, ws) ∧ s = setBank .I m State.reset := by
  unfold boot at h
  split at h
  · cases h
  · next m ws' hload =>
    cases h
    exact ⟨m, hload, rfl⟩

theorem State.wf_setBank {B : Bank} {m : Memory} {s : State} (hs : s.wf = true) (hm : m.wf = true) :
    (setBank B m s).wf = true := by
  rw [State.wf_iff] at hs ⊢
  intro B'
  rw [bank_setBank]
  split
  · exact hm
  · exact hs B'

theorem State.wf_reset : State.reset.wf = true := rfl

/-- Settles O39: every write of the loader keeps the canonical form of bank I. -/
theorem bootIsCanonical : Obligations.BootIsCanonical := by
  unfold Obligations.BootIsCanonical
  refine ⟨State.wf_reset, ?_⟩
  intro text s ws h
  obtain ⟨m, hload, rfl⟩ := boot_eq_ok h
  exact State.wf_setBank State.wf_reset (loadFrom_wf _ hload Memory.wf_nil)

end Sys2Proof.Machine
end

section
/-! What a packed word decodes to, opcode by opcode and condition by condition (30_encoding.md R65, R121). -/

namespace Sys2Proof

/-! ### The instruction of a packed word -/

section DecodedWord

variable (a b y : Nibble) (lit : Word)

@[simp] theorem decodeWords_mov : decodeWords (packWord 0x0#4 a b y) lit = .mov (regOf y) (regOf a) := by
  simp [decodeWords]

@[simp] theorem decodeWords_ldi : decodeWords (packWord 0x1#4 a b y) lit = .ldi (regOf y) lit := by simp [decodeWords]

@[simp] theorem decodeWords_st : decodeWords (packWord 0x2#4 a b y) lit = .st (regOf a) (regOf b) := by
  simp [decodeWords]

@[simp] theorem decodeWords_ld : decodeWords (packWord 0x3#4 a b y) lit = .ld (regOf y) (regOf a) (regOf b) := by
  simp [decodeWords]

@[simp] theorem decodeWords_bitOr : decodeWords (packWord 0x4#4 a b y) lit = .bitOr (regOf y) (regOf a) (regOf b) := by
  simp [decodeWords]

@[simp] theorem decodeWords_bitNot : decodeWords (packWord 0x5#4 a b y) lit = .bitNot (regOf y) (regOf a) := by
  simp [decodeWords]

@[simp] theorem decodeWords_bitAnd :
    decodeWords (packWord 0x6#4 a b y) lit = .bitAnd (regOf y) (regOf a) (regOf b) := by
  simp [decodeWords]

@[simp] theorem decodeWords_bitXor :
    decodeWords (packWord 0x7#4 a b y) lit = .bitXor (regOf y) (regOf a) (regOf b) := by
  simp [decodeWords]

@[simp] theorem decodeWords_add : decodeWords (packWord 0x8#4 a b y) lit = .add (regOf y) (regOf a) (regOf b) := by
  simp [decodeWords]

@[simp] theorem decodeWords_sub : decodeWords (packWord 0x9#4 a b y) lit = .sub (regOf y) (regOf a) (regOf b) := by
  simp [decodeWords]

@[simp] theorem decodeWords_lnot : decodeWords (packWord 0xA#4 a b y) lit = .lnot (regOf y) (regOf a) := by
  simp [decodeWords]

@[simp] theorem decodeWords_shr : decodeWords (packWord 0xB#4 a b y) lit = .shr (regOf y) (regOf a) := by
  simp [decodeWords]

/-- R64: the top bit of the `rB` field, bit 7 of the word, tells the two Pushes apart. -/
@[simp] theorem decodeWords_push :
    decodeWords (packWord 0xC#4 a b y) lit = if b.getLsbD 3 then .pushPc else .push (regOf a) := by
  simp [decodeWords]

@[simp] theorem decodeWords_pop : decodeWords (packWord 0xD#4 a b y) lit = .pop (regOf y) (a ++ b) := by
  simp [decodeWords]

@[simp] theorem decodeWords_jmp : decodeWords (packWord 0xE#4 a b y) lit = .jmp (regOf a) := by simp [decodeWords]

@[simp] theorem decodeWords_jump : decodeWords (packWord 0xF#4 a b y) lit = decodeJump y (regOf a) (regOf b) := by
  simp [decodeWords]

end DecodedWord

/-! ### The instruction of a condition field -/

section DecodedJump

variable {c : Nibble} (a b : Reg)

@[simp] theorem decodeJump_zero : decodeJump 0x0#4 a b = .jz a b := rfl
@[simp] theorem decodeJump_one : decodeJump 0x1#4 a b = .jnz a b := rfl
@[simp] theorem decodeJump_two : decodeJump 0x2#4 a b = .jneg a b := rfl
@[simp] theorem decodeJump_three : decodeJump 0x3#4 a b = .jpos a b := rfl

theorem decodeJump_jcMid (hlo : 4 ≤ c.toNat) (hhi : c.toNat ≤ 7) : decodeJump c a b = .jcMid c a b := by
  have hc : c = 4 ∨ c = 5 ∨ c = 6 ∨ c = 7 := by revert c; decide
  rcases hc with rfl | rfl | rfl | rfl <;> rfl

theorem decodeJump_jcHigh (h : 8 ≤ c.toNat) : decodeJump c a b = .jcHigh c a b := by
  unfold decodeJump
  split
  case h_9 => rfl
  all_goals omega

end DecodedJump

/-- R121: conditions 0 to 3 have a row each, and the two JC rows share the others. -/
theorem condition_cases (c : Nibble) :
    c = 0x0#4 ∨ c = 0x1#4 ∨ c = 0x2#4 ∨ c = 0x3#4 ∨ (4 ≤ c.toNat ∧ c.toNat ≤ 7) ∨ 8 ≤ c.toNat := by
  revert c
  decide

theorem encode_decodeJump (c : Nibble) (a b : Reg) :
    encode (decodeJump c a b) = [packWord 0xF (regBits a) (regBits b) c] := by
  obtain rfl | rfl | rfl | rfl | ⟨hlo, hhi⟩ | hc := condition_cases c
  · rfl
  · rfl
  · rfl
  · rfl
  · rw [decodeJump_jcMid a b hlo hhi]
    rfl
  · rw [decodeJump_jcHigh a b hc]
    rfl

theorem wellFormed_decodeJump (c : Nibble) (a b : Reg) : (decodeJump c a b).wellFormed = true := by
  obtain rfl | rfl | rfl | rfl | ⟨hlo, hhi⟩ | hc := condition_cases c
  · rfl
  · rfl
  · rfl
  · rfl
  · rw [decodeJump_jcMid a b hlo hhi]
    exact decide_eq_true ⟨hlo, hhi⟩
  · rw [decodeJump_jcHigh a b hc]
    exact decide_eq_true hc

end Sys2Proof
end

section
/-! What masking does to the four fields of a word (30_encoding.md R60), and which bits are used (R66, R67). -/

namespace Sys2Proof

/-! ### Fields of a masked word -/

/-- R60: the sixteen values of a field. -/
theorem nibble_cases (n : Nibble) :
    n = 0x0#4 ∨ n = 0x1#4 ∨ n = 0x2#4 ∨ n = 0x3#4 ∨ n = 0x4#4 ∨ n = 0x5#4 ∨ n = 0x6#4 ∨ n = 0x7#4 ∨
    n = 0x8#4 ∨ n = 0x9#4 ∨ n = 0xA#4 ∨ n = 0xB#4 ∨ n = 0xC#4 ∨ n = 0xD#4 ∨ n = 0xE#4 ∨ n = 0xF#4 := by
  revert n
  decide

/-- R60, R64, R65: every word is a packed word with one of the sixteen opcodes, Push's being split by its flag. To prove
a fact of all words, prove it in each of these cases. -/
theorem word_cases {P : Word → Prop}
    (mov : ∀ a b y, P (packWord 0x0#4 a b y))
    (ldi : ∀ a b y, P (packWord 0x1#4 a b y))
    (st : ∀ a b y, P (packWord 0x2#4 a b y))
    (ld : ∀ a b y, P (packWord 0x3#4 a b y))
    (bitOr : ∀ a b y, P (packWord 0x4#4 a b y))
    (bitNot : ∀ a b y, P (packWord 0x5#4 a b y))
    (bitAnd : ∀ a b y, P (packWord 0x6#4 a b y))
    (bitXor : ∀ a b y, P (packWord 0x7#4 a b y))
    (add : ∀ a b y, P (packWord 0x8#4 a b y))
    (sub : ∀ a b y, P (packWord 0x9#4 a b y))
    (lnot : ∀ a b y, P (packWord 0xA#4 a b y))
    (shr : ∀ a b y, P (packWord 0xB#4 a b y))
    (push : ∀ a b y, b[3] = false → P (packWord 0xC#4 a b y))
    (pushPc : ∀ a b y, b[3] = true → P (packWord 0xC#4 a b y))
    (pop : ∀ a b y, P (packWord 0xD#4 a b y))
    (jmp : ∀ a b y, P (packWord 0xE#4 a b y))
    (jump : ∀ a b y, P (packWord 0xF#4 a b y)) (w : Word) : P w := by
  obtain ⟨op, a, b, y, rfl⟩ := exists_packWord w
  obtain rfl | rfl | rfl | rfl | rfl | rfl | rfl | rfl | rfl | rfl | rfl | rfl | rfl | rfl | rfl | rfl :=
    nibble_cases op
  · exact mov a b y
  · exact ldi a b y
  · exact st a b y
  · exact ld a b y
  · exact bitOr a b y
  · exact bitNot a b y
  · exact bitAnd a b y
  · exact bitXor a b y
  · exact add a b y
  · exact sub a b y
  · exact lnot a b y
  · exact shr a b y
  · cases hflag : b[3]
    · exact push a b y hflag
    · exact pushPc a b y hflag
  · exact pop a b y
  · exact jmp a b y
  · exact jump a b y

@[simp] theorem nibble_and_F (n : Nibble) : n &&& 0xF#4 = n := BitVec.and_allOnes

theorem nibble_and_8 (n : Nibble) : n &&& 0x8#4 = if n.getLsbD 3 then 0x8#4 else 0x0#4 := by
  revert n
  decide

/-- R60: masking a word masks its fields. The mask's fields are written so that `simp` evaluates them for a numeral. -/
theorem packWord_and (op a b y : Nibble) (m : Word) :
    packWord op a b y &&& m =
      packWord (op &&& m.extractLsb' 12 4) (a &&& m.extractLsb' 8 4) (b &&& m.extractLsb' 4 4)
        (y &&& m.extractLsb' 0 4) := by
  obtain ⟨op', a', b', y', rfl⟩ := exists_packWord m
  change _ = packWord (op &&& opOf _) (a &&& fieldA _) (b &&& fieldB _) (y &&& fieldY _)
  rw [opOf_packWord, fieldA_packWord, fieldB_packWord, fieldY_packWord]
  apply BitVec.eq_of_getLsbD_eq
  intro i hi
  simp only [BitVec.getLsbD_and, packWord_getLsbD]
  split_ifs <;> rfl

theorem packWord_eq_iff (op a b y : Nibble) (w : Word) :
    packWord op a b y = w ↔
      op = w.extractLsb' 12 4 ∧ a = w.extractLsb' 8 4 ∧ b = w.extractLsb' 4 4 ∧ y = w.extractLsb' 0 4 := by
  constructor
  · rintro rfl
    exact ⟨(opOf_packWord ..).symm, (fieldA_packWord ..).symm, (fieldB_packWord ..).symm, (fieldY_packWord ..).symm⟩
  · rintro ⟨rfl, rfl, rfl, rfl⟩
    exact packWord_fields w

theorem opOf_and (w m : Word) : opOf (w &&& m) = opOf w &&& opOf m := BitVec.extractLsb'_and

theorem pushFlag_and (w m : Word) : pushFlag (w &&& m) = (pushFlag w && pushFlag m) := BitVec.getLsbD_and

/-! ### Used bits -/

theorem opOf_usedBits (w : Word) : opOf (usedBits w) = 0xF#4 := by
  unfold usedBits
  split
  case h_7 => split <;> rfl
  all_goals rfl

theorem pushFlag_usedBits {w : Word} (h : opOf w = 0xC) : pushFlag (usedBits w) = true := by
  unfold usedBits
  rw [h]
  cases hflag : pushFlag w <;> rfl

/-- R66: only the opcode, and Push's flag, tell which bits a word uses. -/
theorem usedBits_congr {w w' : Word} (hop : opOf w' = opOf w) (hflag : opOf w = 0xC → pushFlag w' = pushFlag w) :
    usedBits w' = usedBits w := by
  unfold usedBits
  rw [hop]
  split
  case h_7 h => rw [hflag (BitVec.eq_of_toNat_eq h)]
  all_goals rfl

theorem opOf_eq_of_agree {w w' : Word} (h : w &&& usedBits w = w' &&& usedBits w) : opOf w' = opOf w := by
  have hop := congrArg opOf h
  rw [opOf_and, opOf_and, opOf_usedBits, nibble_and_F, nibble_and_F] at hop
  exact hop.symm

theorem usedBits_eq_of_agree {w w' : Word} (h : w &&& usedBits w = w' &&& usedBits w) : usedBits w' = usedBits w := by
  refine usedBits_congr (opOf_eq_of_agree h) ?_
  intro hpush
  have hflag := congrArg pushFlag h
  rw [pushFlag_and, pushFlag_and, pushFlag_usedBits hpush, Bool.and_true, Bool.and_true] at hflag
  exact hflag.symm

end Sys2Proof
end

section
/-! Decoding undoes encoding, encoding a decoded word clears its ignored bits, and every word fits one row of the opcode
table (30_encoding.md R60–R69). -/

namespace Sys2Proof

/-! ### Length -/

/-- R61, R62: the opcode alone tells the length. -/
theorem Instr.length_eq (i : Instr) : i.length = if i.opcode = 0x1 then 2 else 1 := by
  cases i <;> rfl

theorem decode_two_words {w : Word} (h : opOf w = 0x1) (lit : Word) (rest : List Word) :
    decode (w :: lit :: rest) = .ok (decodeWords w lit, rest) := by
  simp [decode, isTwoWord, h]

theorem decode_one_word {w : Word} (h : opOf w ≠ 0x1) (rest : List Word) :
    decode (w :: rest) = .ok (decodeWords w 0, rest) := by
  have hshort : isTwoWord w = false := beq_false_of_ne h
  simp [decode, hshort]

/-- Settles O6: the opcode tells the decoder how many words to take, and the instruction has the word's opcode. -/
theorem lengthFromOpcodeAlone : Obligations.LengthFromOpcodeAlone := by
  unfold Obligations.LengthFromOpcodeAlone
  intro w next rest
  refine ⟨fun h => decode_two_words h next rest, fun h => decode_one_word h (next :: rest), ?_⟩
  rw [Instr.length_eq, Machine.opcode_decodeWords]

/-! ### Decoding an encoded instruction -/

/-- R61: what the encoder writes, told from the opcode. -/
theorem encode_eq (i : Instr) :
    encode i = encodeFirst i :: if i.opcode = 0x1 then [(encode i)[1]?.getD 0] else [] := by
  cases i <;> rfl

/-- R65: the first word carries the instruction's opcode. -/
theorem opOf_encodeFirst (i : Instr) : opOf (encodeFirst i) = i.opcode := by
  cases i
  case pop y mid => exact (Laws.EncodedShape.pop y mid).1
  all_goals exact opOf_packWord ..

/-- R60, R63, R64: the first word, with the literal if there is one, decodes to the instruction. -/
theorem decodeWords_encodeFirst {i : Instr} (h : i.wellFormed = true) :
    decodeWords (encodeFirst i) ((encode i)[1]?.getD 0) = i := by
  cases i
  case ldi y imm => simp [encodeFirst, encode]
  case pop y mid =>
    obtain ⟨a, b, rfl⟩ := exists_popMid mid
    simp [encodeFirst, popInstrWord_eq]
  case jcMid c a b =>
    obtain ⟨hlo, hhi⟩ := of_decide_eq_true h
    simp [encodeFirst, decodeJump_jcMid _ _ hlo hhi]
  case jcHigh c a b =>
    have hc := of_decide_eq_true h
    simp [encodeFirst, decodeJump_jcHigh _ _ hc]
  all_goals simp [encodeFirst]

/-- Settles O2: the encoder writes as many words as the decoder takes for that opcode, and they decode to the
instruction. -/
theorem encodedInstructionDecodesToItself : Obligations.EncodedInstructionDecodesToItself := by
  unfold Obligations.EncodedInstructionDecodesToItself
  intro i rest hwf
  have hdecode := decodeWords_encodeFirst hwf
  rw [encode_eq]
  by_cases hop : i.opcode = 0x1
  · rw [if_pos hop, List.cons_append, List.singleton_append, decode_two_words ((opOf_encodeFirst i).trans hop),
      hdecode]
  · have hlit : (encode i)[1]?.getD 0 = 0 := by
      rw [encode_eq, if_neg hop]
      rfl
    rw [hlit] at hdecode
    rw [if_neg hop, List.singleton_append, decode_one_word (mt (opOf_encodeFirst i).symm.trans hop), hdecode]

theorem encode_injective {i j : Instr} (hi : i.wellFormed = true) (hj : j.wellFormed = true)
    (h : encode i = encode j) : i = j := by
  have hdecode := encodedInstructionDecodesToItself i [] hi
  rw [h, encodedInstructionDecodesToItself j [] hj] at hdecode
  cases hdecode
  rfl

/-! ### Encoding a decoded word -/

/-- Settles O3, by the opcode: field by field, what the decoder drops is what the mask clears. -/
theorem reencodingClearsIgnoredBits : Obligations.ReencodingClearsIgnoredBits := by
  unfold Obligations.ReencodingClearsIgnoredBits
  intro w lit
  cases w using word_cases
  case pop a b y => simp [packWord_and, usedBits, encode, encodeFirst, popInstrWord_eq]
  case jump a b y =>
    rw [decodeWords_jump, encode_decodeJump]
    simp [packWord_and, usedBits]
  case push a b y hflag | pushPc a b y hflag =>
    simp [packWord_and, usedBits, encode, encodeFirst, nibble_and_8, hflag]
  all_goals simp [packWord_and, usedBits, encode, encodeFirst]

/-! ### Well-formedness and the opcode table -/

/-- R67: no word decodes to an ill-formed instruction. -/
theorem wellFormed_decodeWords (w lit : Word) : (decodeWords w lit).wellFormed = true := by
  unfold decodeWords
  split
  case h_13 => split <;> rfl
  case h_16 => exact wellFormed_decodeJump ..
  all_goals rfl

/-- Settles O4: the two words decode to well-formed instructions with the same encoding. -/
theorem ignoredBitsDoNotMatter : Obligations.IgnoredBitsDoNotMatter := by
  unfold Obligations.IgnoredBitsDoNotMatter
  intro w w' lit h
  refine encode_injective (wellFormed_decodeWords w' lit) (wellFormed_decodeWords w lit) ?_
  rw [reencodingClearsIgnoredBits, reencodingClearsIgnoredBits, usedBits_eq_of_agree h, opOf_eq_of_agree h, h]

/-- A row of the table fits a word if its mask and match fit each field. -/
theorem fits_packWord (r : OpcodeRow) (op a b y : Nibble) :
    r.fits (packWord op a b y) = true ↔
      op &&& r.mask.extractLsb' 12 4 = r.value.extractLsb' 12 4 ∧
      a &&& r.mask.extractLsb' 8 4 = r.value.extractLsb' 8 4 ∧
      b &&& r.mask.extractLsb' 4 4 = r.value.extractLsb' 4 4 ∧
      y &&& r.mask.extractLsb' 0 4 = r.value.extractLsb' 0 4 := by
  rw [OpcodeRow.fits, beq_iff_eq, packWord_and, packWord_eq_iff]

/-- R65, R121: the four conditions have a row each, and the masks of the two JC rows share the other twelve. -/
theorem fitting_row_jump (a b c : Nibble) :
    (opcodeTable.filter (fun r => r.fits (packWord 0xF#4 a b c))).map OpcodeRow.mnemonic =
      [(decodeJump c (regOf a) (regOf b)).mnemonic] := by
  obtain rfl | rfl | rfl | rfl | rfl | rfl | rfl | rfl | rfl | rfl | rfl | rfl | rfl | rfl | rfl | rfl :=
    nibble_cases c
  all_goals simp [opcodeTable, fits_packWord, Instr.mnemonic, decodeJump]

/-- R65: the one row that fits has the opcode of the word, and for a Push its flag. -/
theorem fitting_row (w lit : Word) :
    (opcodeTable.filter (fun r => r.fits w)).map OpcodeRow.mnemonic = [(decodeWords w lit).mnemonic] := by
  cases w using word_cases
  case jump a b y => rw [decodeWords_jump, fitting_row_jump]
  case push a b y hflag | pushPc a b y hflag =>
    simp [opcodeTable, fits_packWord, Instr.mnemonic, nibble_and_8, hflag]
  all_goals simp [opcodeTable, fits_packWord, Instr.mnemonic]

/-- Settles O5: the row is found by the opcode, Push's flag and the condition, as the decoder finds the instruction. -/
theorem everyWordFitsOneRow : Obligations.EveryWordFitsOneRow := by
  unfold Obligations.EveryWordFitsOneRow
  intro w lit
  exact ⟨fitting_row w lit, Machine.opcode_decodeWords w lit, wellFormed_decodeWords w lit⟩

/-! ### Words of the test vectors -/

/-- Settles O1: each of the words evaluates to its instruction. -/
theorem specWordsDecode : Obligations.SpecWordsDecode := by
  unfold Obligations.SpecWordsDecode
  and_intros <;> rfl

end Sys2Proof
end

section
/-! Move, Load Immediate, Store and Load (40_data_movement.md R80–R83), and runs through memory that reads 0 (R68). -/

namespace Sys2Proof.Machine

/-! ### Writing one register and going on -/

theorem BanksKept.of_memRead_eq {s t : State} (h : ∀ B a, memRead B a t = memRead B a s) : BanksKept s t :=
  ⟨h .I, h .D, h .S⟩

/-- R80, R81: the frame of an instruction that writes one register and advances pc by `n`. -/
theorem onlyReg_advance_writeReg (n : Word) (y : Reg) (v : Word) (s : State) :
    OnlyReg y v (s.pc + n) s (advance n (writeReg y v s)) := by
  refine ⟨fun r => ?_, rfl, rfl, ⟨rfl, rfl, rfl⟩, .of_memRead_eq fun B a => ?_⟩
  · rw [advance_eq, readReg_setPc, readReg_writeReg]
  · rw [advance_eq, memRead_setPc, memRead_writeReg]

theorem onlyReg_putResult (y : Reg) (v : Word) (s : State) : OnlyReg y v (s.pc + 1) s (putResult y v s) :=
  onlyReg_advance_writeReg 1 y v s

/-! ### Move -/

theorem exec_mov (y a : Reg) (s : State) : exec (.mov y a) s = .next (putResult y (readReg a s) s) := rfl

/-- Settles O11: Move writes its result to one register and goes on. -/
theorem movCopiesRegister : Obligations.MovCopiesRegister := by
  unfold Obligations.MovCopiesRegister
  exact ⟨decodeWords_mov, fun y a s => ⟨_, exec_mov y a s, onlyReg_putResult y _ s⟩⟩

/-- R80: the register gets back what it holds, so that only pc changes. -/
theorem exec_mov_self (r : Reg) (s : State) : exec (.mov r r) s = .next (setPc (s.pc + 1) s) := by
  rw [exec_mov, putResult, writeReg_self, advance_eq]

theorem exec_mov_back (a b : Reg) (s : State) :
    ∃ t u, exec (.mov b a) s = .next t ∧ exec (.mov a b) t = .next u ∧
      readReg a u = readReg a s ∧ readReg b u = readReg a s := by
  refine ⟨_, _, exec_mov b a s, exec_mov a b _, ?_, ?_⟩ <;> simp

/-- Settles O35: a write of the value already held changes no register, and the way back reads what the way there
wrote. -/
theorem moveThereAndBack : Obligations.MoveThereAndBack :=
  ⟨exec_mov_self, exec_mov_back⟩

/-! ### Memory that reads 0 -/

/-- R68, R71: the word 0 is `MOV r0, r0`. -/
theorem decodeWords_zero (lit : Word) : decodeWords 0 lit = .mov 0 0 :=
  decodeWords_mov 0 0 0 lit

theorem step_of_fetchWord_zero {s : State} (h : fetchWord s = 0) : step s = .next (setPc (s.pc + 1) s) := by
  rw [step, fetchInstr, h, decodeWords_zero, exec_mov_self]

theorem stepMany_of_bankI_zero (n : Nat) : ∀ s, (∀ a, memRead .I a s = 0) →
    stepMany n s = .next (setPc (s.pc + BitVec.ofNat 16 n) s) := by
  induction n with
  | zero =>
    intro s _
    rw [BitVec.add_zero]
    rfl
  | succ n ih =>
    intro s h
    have hpc : s.pc + BitVec.ofNat 16 (n + 1) = s.pc + 1 + BitVec.ofNat 16 n := by
      rw [Nat.add_comm n 1, BitVec.ofNat_add, BitVec.add_assoc]
      rfl
    rw [stepMany_succ (step_of_fetchWord_zero (h s.pc)), ih (setPc (s.pc + 1) s) h, hpc]
    rfl

/-- Settles O32, by induction on the number of steps: each of them is a Move of register 0 to itself. -/
theorem unloadedMemoryOnlyAdvancesPc : Obligations.UnloadedMemoryOnlyAdvancesPc :=
  stepMany_of_bankI_zero

/-! ### Load Immediate -/

theorem exec_ldi (y : Reg) (imm : Word) (s : State) :
    exec (.ldi y imm) s = .next (advance 2 (writeReg y imm s)) := rfl

theorem step_of_ldi {s : State} {a b y : Nibble} (h : memRead .I s.pc s = packWord 0x1 a b y) :
    step s = exec (.ldi (regOf y) (memRead .I (s.pc + 1) s)) s := by
  rw [step_eq_exec_decodeWords, h]
  exact congrArg (exec · s) (decodeWords_ldi a b y _)

/-- Settles O12: the literal is the second word of the fetch, and one register is written. -/
theorem ldiLoadsNextWord : Obligations.LdiLoadsNextWord := by
  unfold Obligations.LdiLoadsNextWord
  exact ⟨fun s a b y h => step_of_ldi h, fun y imm s => ⟨_, exec_ldi y imm s, onlyReg_advance_writeReg 2 y imm s⟩⟩

/-! ### Store -/

/-- R82: the write to bank D leaves the address register as it was, so `mar` gets the address of the write. -/
theorem exec_st (a b : Reg) (s : State) :
    exec (.st a b) s =
      .next (advance 1 (markData (readReg b s) (memWrite .D (readReg b s) (readReg a s) s))) := by
  rw [← readReg_memWrite b .D (readReg b s) (readReg a s) s]
  rfl

theorem bankWritten_memWrite (B : Bank) (a v : Word) (s : State) : BankWritten B a v s (memWrite B a v s) := by
  intro a'
  rw [memRead_memWrite, if_pos rfl]

theorem bankKept_memWrite {B B' : Bank} (h : B' ≠ B) (a v : Word) (s : State) :
    BankKept B' s (memWrite B a v s) := by
  intro a'
  rw [memRead_memWrite, if_neg h]

/-- Settles O13, from the laws of a write to a bank; `markData` and `advance` touch no bank and no register. -/
theorem stStoresWord : Obligations.StStoresWord := by
  unfold Obligations.StStoresWord
  refine ⟨decodeWords_st, fun a b s => ⟨_, exec_st a b s, rfl, ?_, ?_, ?_, rfl, rfl, rfl, rfl, rfl, ?_⟩⟩
  · exact bankWritten_memWrite .D _ _ s
  · exact bankKept_memWrite (show Bank.I ≠ .D by decide) (readReg b s) (readReg a s) s
  · exact bankKept_memWrite (show Bank.S ≠ .D by decide) (readReg b s) (readReg a s) s
  · exact fun r => readReg_memWrite r .D (readReg b s) (readReg a s) s

/-! ### Load -/

theorem exec_ld (y a b : Reg) (s : State) :
    exec (.ld y a b) s =
      .next (advance 1 (markData (if b = y then memRead .D (readReg a s) s else readReg b s)
        (writeReg y (memRead .D (readReg a s) s) s))) := by
  rw [← readReg_writeReg]
  rfl

/-- Settles O14: the register read for `mar` after the write to `x[rY]` gives the loaded word if it is the same. -/
theorem ldLoadsWordAndSetsMar : Obligations.LdLoadsWordAndSetsMar := by
  unfold Obligations.LdLoadsWordAndSetsMar
  refine ⟨decodeWords_ld, fun y a b s => ⟨_, exec_ld y a b s, fun r => ?_, rfl, rfl, rfl, rfl, rfl,
    .of_memRead_eq fun B a' => ?_⟩⟩
  · rw [advance_eq, readReg_setPc, readReg_markData, readReg_writeReg]
  · rw [advance_eq, memRead_setPc, memRead_markData, memRead_writeReg]

end Sys2Proof.Machine
end

section
/-! The ALU instructions (41_alu.md): each writes one result to `x[rY]` and goes on (R98). -/

namespace Sys2Proof.Machine

/-! ### What each instruction writes -/

section Meanings

variable (y a b : Reg) (s : State)

theorem exec_bitOr : exec (.bitOr y a b) s = .next (putResult y (readReg a s ||| readReg b s) s) := rfl
theorem exec_bitNot : exec (.bitNot y a) s = .next (putResult y (~~~readReg a s) s) := rfl
theorem exec_bitAnd : exec (.bitAnd y a b) s = .next (putResult y (readReg a s &&& readReg b s) s) := rfl
theorem exec_bitXor : exec (.bitXor y a b) s = .next (putResult y (readReg a s ^^^ readReg b s) s) := rfl
theorem exec_add : exec (.add y a b) s = .next (putResult y (readReg a s + readReg b s) s) := rfl
theorem exec_sub : exec (.sub y a b) s = .next (putResult y (readReg a s - readReg b s) s) := rfl
theorem exec_lnot : exec (.lnot y a) s = .next (putResult y (logicalNot (readReg a s)) s) := rfl
theorem exec_shr : exec (.shr y a) s = .next (putResult y (shiftRightOne (readReg a s)) s) := rfl

end Meanings

/-- R98: an instruction that writes one result and goes on keeps the frame; what is left to show of it is the result. -/
theorem exec_onlyReg_of_putResult {i : Instr} {y : Reg} {v : Word} {s : State} {P : Word → Prop}
    (hexec : exec i s = .next (putResult y v s)) (hv : P v) :
    ∃ t v, exec i s = .next t ∧ OnlyReg y v (s.pc + 1) s t ∧ P v :=
  ⟨_, v, hexec, onlyReg_putResult y v s, hv⟩

/-! ### Bitwise operations -/

/-- Settles O15: the results are the bitwise operations of words, whose bits the library tells. -/
theorem bitwiseOperations : Obligations.BitwiseOperations := by
  unfold Obligations.BitwiseOperations
  constructor
  · intro a b y lit
    exact ⟨decodeWords_bitOr a b y lit, decodeWords_bitAnd a b y lit, decodeWords_bitXor a b y lit⟩
  · intro y a b s
    refine ⟨exec_onlyReg_of_putResult (exec_bitOr y a b s) ?_, exec_onlyReg_of_putResult (exec_bitAnd y a b s) ?_,
      exec_onlyReg_of_putResult (exec_bitXor y a b s) ?_⟩
    · exact fun _ => BitVec.getLsbD_or
    · exact fun _ => BitVec.getLsbD_and
    · exact fun _ => BitVec.getLsbD_xor

/-! ### Sum and difference -/

/-- R95: the difference modulo 2^16, with the borrowed 2^16 added before the subtraction of natural numbers. -/
theorem toNat_sub_word (u v : Word) : (u - v).toNat = (u.toNat + 65536 - v.toNat) % 65536 := by
  have hv := v.isLt
  rw [BitVec.toNat_sub]
  congr 1
  omega

/-- Settles O16: the results are the sum and the difference of words. -/
theorem addAndSubtractWrap : Obligations.AddAndSubtractWrap := by
  unfold Obligations.AddAndSubtractWrap
  constructor
  · intro a b y lit
    exact ⟨decodeWords_add a b y lit, decodeWords_sub a b y lit⟩
  · intro y a b s
    refine ⟨exec_onlyReg_of_putResult (exec_add y a b s) ?_, exec_onlyReg_of_putResult (exec_sub y a b s) ?_⟩
    · exact BitVec.toNat_add ..
    · exact toNat_sub_word ..

/-! ### Operations of one operand -/

/-- R91: NOT flips every bit. -/
theorem not_eq_FFFF_xor (v : Word) : ~~~v = 0xFFFF ^^^ v :=
  BitVec.allOnes_xor.symm

theorem logicalNot_toNat (v : Word) : (logicalNot v).toNat = if v.toNat = 0 then 1 else 0 := by
  have hzero : v = 0x0000#16 ↔ v.toNat = 0 := BitVec.toNat_inj.symm
  simp only [logicalNot, hzero]
  split <;> rfl

theorem shiftRightOne_toNat (v : Word) : (shiftRightOne v).toNat = v.toNat / 2 := by
  rw [shiftRightOne, BitVec.toNat_ushiftRight, Nat.shiftRight_succ, Nat.shiftRight_zero]

/-- Settles O17, from the value of each result. -/
theorem unaryOperations : Obligations.UnaryOperations := by
  unfold Obligations.UnaryOperations
  constructor
  · intro a b y lit
    exact ⟨decodeWords_bitNot a b y lit, decodeWords_lnot a b y lit, decodeWords_shr a b y lit⟩
  · intro y a s
    refine ⟨exec_onlyReg_of_putResult (exec_bitNot y a s) ?_, exec_onlyReg_of_putResult (exec_lnot y a s) ?_,
      exec_onlyReg_of_putResult (exec_shr y a s) ?_⟩
    · exact not_eq_FFFF_xor _
    · exact logicalNot_toNat _
    · exact shiftRightOne_toNat _

/-! ### Laws -/

theorem exec_bitNot_bitNot (a b c : Reg) (s : State) :
    ∃ t u, exec (.bitNot b a) s = .next t ∧ exec (.bitNot c b) t = .next u ∧ readReg c u = readReg a s := by
  refine ⟨_, _, exec_bitNot b a s, exec_bitNot c b _, ?_⟩
  rw [putResult_reg, if_pos rfl, putResult_reg, if_pos rfl, BitVec.not_not]

/-- R94, R95, R98: the sum went to another register than the operand `x[b]`, so SUB takes the same word off again. -/
theorem exec_add_sub {b c : Reg} (h : c ≠ b) (a d : Reg) (s : State) :
    ∃ t u, exec (.add c a b) s = .next t ∧ exec (.sub d c b) t = .next u ∧ readReg d u = readReg a s := by
  refine ⟨_, _, exec_add c a b s, exec_sub d c b _, ?_⟩
  rw [putResult_reg, if_pos rfl, putResult_reg, if_pos rfl, putResult_reg, if_neg h.symm, BitVec.add_sub_cancel]

/-- R71, R93: `CLR rY`. -/
theorem exec_bitXor_self (y : Reg) (s : State) :
    ∃ t, exec (.bitXor y y y) s = .next t ∧ readReg y t = 0 := by
  refine ⟨_, exec_bitXor y y y s, ?_⟩
  rw [putResult_reg, if_pos rfl, BitVec.xor_self]
  rfl

/-- Settles O36: in each law the second reading of a register gives what the first instruction left there, and the
operations on words cancel. -/
theorem aluOperationsUndo : Obligations.AluOperationsUndo :=
  ⟨exec_bitNot_bitNot, fun a _ _ d s h => exec_add_sub h a d s, exec_bitXor_self⟩

end Sys2Proof.Machine
end

section
/-! Push and Pop (42_stack.md R110–R113). -/

namespace Sys2Proof.Machine

/-! ### Push -/

theorem exec_push (a : Reg) (s : State) : exec (.push a) s = .next (pushWord (readReg a s) s) := rfl

/-- R110, R156: the pushed word is the address of the Push itself. -/
theorem exec_pushPc (s : State) : exec .pushPc s = .next (pushWord s.pc s) := rfl

theorem bankWritten_pushWord (v : Word) (s : State) : BankWritten .S (pushSlot s) v s (pushWord v s) := by
  intro a
  rw [pushWord_mem, if_pos rfl, pushSlot]

theorem bankKept_pushWord {B : Bank} (h : B ≠ .S) (v : Word) (s : State) : BankKept B s (pushWord v s) := by
  intro a
  rw [pushWord_mem, if_neg h]

/-- R24, R110: the stack pointer wraps modulo 2^16. -/
theorem pushWord_rsp_toNat (v : Word) (s : State) : (pushWord v s).rsp.toNat = (s.rsp.toNat + 1) % 65536 := by
  rw [pushWord_rsp]
  exact BitVec.toNat_add ..

/-- R110: PUSH and PUSH PC differ only in the word they push. -/
theorem exec_eq_pushWord {i : Instr} {v : Word} {s : State}
    (h : (∃ a, i = .push a ∧ v = readReg a s) ∨ (i = .pushPc ∧ v = s.pc)) : exec i s = .next (pushWord v s) := by
  obtain ⟨a, rfl, rfl⟩ | ⟨rfl, rfl⟩ := h
  · exact exec_push a s
  · exact exec_pushPc s

/-- Settles O18: both Pushes run `pushWord`, which writes one slot of bank S. -/
theorem pushWritesNextSlot : Obligations.PushWritesNextSlot := by
  unfold Obligations.PushWritesNextSlot
  refine ⟨decodeWords_push, fun i v s h => ⟨_, exec_eq_pushWord h, rfl, bankWritten_pushWord v s,
    pushWord_rsp_toNat v s, pushWord_sUpd v s, pushWord_pc v s, pushWord_mar v s, pushWord_dUpd v s,
    fun r => pushWord_reg r v s, ?_, ?_⟩⟩
  · exact bankKept_pushWord (by decide) v s
  · exact bankKept_pushWord (by decide) v s

/-! ### Pop -/

/-- R111, R64: the flag is that of the Pop's own word. -/
theorem exec_pop (y : Reg) (mid : BitVec 8) (s : State) :
    exec (.pop y mid) s = .next (popWord (popFlag (popInstrWord y mid)) y s) := rfl

/-- R24, R111: the stack pointer wraps modulo 2^16. -/
theorem popWord_rsp_toNat (flag : Bool) (y : Reg) (s : State) :
    (popWord flag y s).rsp.toNat = (s.rsp.toNat + 65535) % 65536 := by
  rw [popWord_rsp, toNat_sub_word]
  rfl

/-- Settles O19: Pop runs `popWord`, whose new `rsp` is the address of the slot it reads. -/
theorem popReadsTopSlot : Obligations.PopReadsTopSlot := by
  unfold Obligations.PopReadsTopSlot
  constructor
  · intro a b y lit
    exact ⟨decodeWords_pop a b y lit, popInstrWord_eq (regOf y) a b⟩
  · intro y mid s
    refine ⟨_, exec_pop y mid s, popWord_rsp_toNat _ y s, fun r => ?_, ?_, popWord_sUpd _ y s, popWord_mar _ y s,
      popWord_dUpd _ y s, .of_memRead_eq fun B a => popWord_mem B a _ y s⟩
    · rw [popWord_reg, popWord_rsp]
    · rw [popWord_pc, popWord_rsp]

/-! ### A Pop of the slot that a Push wrote -/

/-- R112: the slot of the Push reads what was pushed. -/
theorem pushWord_slot (v : Word) (s : State) : memRead .S s.rsp (pushWord v s) = v := by
  rw [pushWord_mem, if_pos rfl, if_pos rfl]

section
variable {u : State} {slot : Word} (h : u.rsp = slot + 1)
include h

/-- R24: the slot below the next free one is the slot that the Push wrote, also where `rsp` wraps. -/
theorem rsp_sub_one_eq_slot : u.rsp - 1 = slot := by
  rw [h, BitVec.add_sub_cancel]

theorem popWord_rsp_of_slot (flag : Bool) (y : Reg) : (popWord flag y u).rsp = slot := by
  rw [popWord_rsp, rsp_sub_one_eq_slot h]

theorem popWord_reg_of_slot (flag : Bool) (y : Reg) :
    readReg y (popWord flag y u) = if flag then readReg y u else memRead .S slot u := by
  rw [popWord_reg, rsp_sub_one_eq_slot h]
  cases flag <;> simp

theorem popWord_pc_of_slot (flag : Bool) (y : Reg) :
    (popWord flag y u).pc = if flag then memRead .S slot u + 1 else u.pc + 1 := by
  rw [popWord_pc, rsp_sub_one_eq_slot h, apply_ite (· + 1)]

end

/-- Settles O20: the Pop reads the slot of the Push, which holds the pushed register. -/
theorem pushThenPopRestores : Obligations.PushThenPopRestores := by
  unfold Obligations.PushThenPopRestores
  intro a y mid s
  have hrsp := pushWord_rsp (readReg a s) s
  refine ⟨_, _, exec_push a s, exec_pop y mid _, popWord_rsp_of_slot hrsp _ y, ?_, ?_⟩
  · rw [popWord_mem, pushWord_slot]
  · rw [popWord_reg_of_slot hrsp, pushWord_reg, pushWord_slot]

/-- Settles O21: the popped slot holds the pc at which PUSH PC executed, and Pop goes on one word after it. -/
theorem pushPcThenPopReturns : Obligations.PushPcThenPopReturns := by
  unfold Obligations.PushPcThenPopReturns
  intro y mid s t u hpush hrsp hslot
  cases (exec_pushPc s).symm.trans hpush
  rw [pushWord_rsp] at hrsp
  rw [pushWord_slot] at hslot
  refine ⟨_, exec_pop y mid u, popWord_rsp_of_slot hrsp _ y, ?_⟩
  rw [popWord_pc_of_slot hrsp, hslot]

end Sys2Proof.Machine
end

section
/-! The Unconditional and the Conditional Jump (43_control_transfer.md R120–R122). -/

namespace Sys2Proof.Machine

/-! ### Replacing pc -/

/-- R120, R122: the frame of an instruction that only replaces pc. -/
theorem onlyPc_setPc (v : Word) (s : State) : OnlyPc v s (setPc v s) :=
  ⟨fun r => readReg_setPc r v s, rfl, rfl, ⟨rfl, rfl, rfl⟩, .of_memRead_eq fun B a => memRead_setPc B a v s⟩

theorem setPc_self (s : State) : setPc s.pc s = s := rfl

/-! ### The Unconditional Jump -/

theorem exec_jmp (a : Reg) (s : State) : exec (.jmp a) s = .next (setPc (readReg a s) s) := rfl

theorem step_of_jmp {s : State} {a b y : Nibble} (h : memRead .I s.pc s = packWord 0xE a b y) :
    step s = exec (.jmp (regOf a)) s := by
  rw [step_eq_exec_decodeWords, h]
  exact congrArg (exec · s) (decodeWords_jmp a b y _)

/-- R120: pc gets the value it has, so that nothing changes at all. -/
theorem step_of_jmp_self {s : State} {a b y : Nibble} (hword : memRead .I s.pc s = packWord 0xE a b y)
    (htarget : readReg (regOf a) s = s.pc) : step s = .next s := by
  rw [step_of_jmp hword, exec_jmp, htarget, setPc_self]

/-- A state that a step leads back to is never left. -/
theorem stepMany_of_step_self {s : State} (h : step s = .next s) (n : Nat) : stepMany n s = .next s := by
  induction n with
  | zero => rfl
  | succ n ih => rw [stepMany_succ h, ih]

/-- Settles O22: the jump replaces pc alone, and a jump to itself is a step back to the same state. -/
theorem jmpReplacesPc : Obligations.JmpReplacesPc := by
  unfold Obligations.JmpReplacesPc
  exact ⟨decodeWords_jmp, fun a s => ⟨_, exec_jmp a s, onlyPc_setPc _ s⟩,
    fun _ _ _ _ hword htarget => stepMany_of_step_self (step_of_jmp_self hword htarget)⟩

/-! ### When a condition holds -/

section Conditions

variable (mask : Word) (ext : Nibble → Word → Bool) (v : Word)

theorem jumpCondWith_zero_iff : jumpCondWith mask ext 0 v = true ↔ v = 0 :=
  beq_iff_eq

theorem jumpCondWith_one_iff : jumpCondWith mask ext 1 v = true ↔ ¬ v = 0 :=
  bne_iff_ne

theorem jumpCondWith_two_iff : jumpCondWith mask ext 2 v = true ↔ ¬ v &&& mask = 0 :=
  bne_iff_ne

/-- R121: condition 3 is condition 1 without condition 2. -/
theorem jumpCondWith_three :
    jumpCondWith mask ext 3 v = (jumpCondWith mask ext 1 v && !jumpCondWith mask ext 2 v) := rfl

theorem jumpCondWith_three_iff : jumpCondWith mask ext 3 v = true ↔ v ≠ 0 ∧ v &&& mask = 0 := by
  rw [jumpCondWith_three, Bool.and_eq_true, jumpCondWith_one_iff, Bool.not_eq_true', ← Bool.not_eq_true,
    jumpCondWith_two_iff, not_not]

theorem jumpCondWith_extended {c : Nibble} (hc : 4 ≤ c.toNat) : jumpCondWith mask ext c v = ext c v := by
  unfold jumpCondWith
  split
  case h_5 => rfl
  all_goals omega

end Conditions

/-! ### The Conditional Jump -/

/-- R122: both outcomes of a branch replace pc and nothing else. -/
theorem onlyPc_branch (taken : Bool) (a : Reg) (s : State) :
    OnlyPc (if taken then readReg a s else s.pc + 1) s (branch taken a s) := by
  cases taken with
  | false => exact onlyPc_setPc (s.pc + 1) s
  | true => exact onlyPc_setPc (readReg a s) s

/-- R122: of an instruction that branches on a condition it remains to show when the condition holds. -/
theorem exec_onlyPc_of_branch {i : Instr} {taken : Bool} {a : Reg} {s : State} {P : Prop} [Decidable P]
    (hexec : exec i s = .next (branch taken a s)) (htaken : taken = true ↔ P) :
    ∃ t, exec i s = .next t ∧ OnlyPc (if P then readReg a s else s.pc + 1) s t := by
  refine ⟨_, hexec, ?_⟩
  rw [← if_congr htaken rfl rfl]
  exact onlyPc_branch taken a s

section Meanings

variable (c : Nibble) (a b : Reg) (s : State)

theorem exec_jz : exec (.jz a b) s = .next (branch (jumpCond 0 (readReg b s)) a s) := rfl
theorem exec_jnz : exec (.jnz a b) s = .next (branch (jumpCond 1 (readReg b s)) a s) := rfl
theorem exec_jneg : exec (.jneg a b) s = .next (branch (jumpCond 2 (readReg b s)) a s) := rfl
theorem exec_jpos : exec (.jpos a b) s = .next (branch (jumpCond 3 (readReg b s)) a s) := rfl
theorem exec_jcMid : exec (.jcMid c a b) s = .next (branch (jumpCond c (readReg b s)) a s) := rfl
theorem exec_jcHigh : exec (.jcHigh c a b) s = .next (branch (jumpCond c (readReg b s)) a s) := rfl

end Meanings

/-! ### Conditions 4 to 15 -/

/-- R122: the two JC rows branch alike; that the term stands for a word says that its condition is 4 or more. -/
theorem exec_extendedJump {i : Instr} {c : Nibble} {a b : Reg} (h : i = .jcMid c a b ∨ i = .jcHigh c a b)
    (hwf : i.wellFormed = true) (s : State) :
    exec i s = .next (branch (cjExtTaken c (readReg b s)) a s) := by
  have hcond (hc : 4 ≤ c.toNat) : jumpCond c (readReg b s) = cjExtTaken c (readReg b s) :=
    jumpCondWith_extended signMask cjExtTaken _ hc
  obtain rfl | rfl := h
  · obtain ⟨hlo, -⟩ := of_decide_eq_true hwf
    rw [exec_jcMid, hcond hlo]
  · have hlo : 8 ≤ c.toNat := of_decide_eq_true hwf
    rw [exec_jcHigh, hcond (by omega)]

/-- Settles O25: both JC rows branch on `CJ_EXT_TAKEN`. -/
theorem extendedConditionJumps : Obligations.ExtendedConditionJumps := by
  unfold Obligations.ExtendedConditionJumps
  constructor
  · intro a b c lit
    have hdecode := decodeWords_jump a b c lit
    exact ⟨fun hlo hhi => hdecode.trans (decodeJump_jcMid _ _ hlo hhi),
      fun hc => hdecode.trans (decodeJump_jcHigh _ _ hc)⟩
  · intro i c a b s h hwf
    exact ⟨_, exec_extendedJump h hwf s, onlyPc_branch _ a s⟩

/-! ### Conditions 0 and 1 -/

/-- Settles O23, from when conditions 0 and 1 hold. -/
theorem zeroTestJumps : Obligations.ZeroTestJumps := by
  unfold Obligations.ZeroTestJumps
  constructor
  · intro a b lit
    exact ⟨decodeWords_jump a b 0 lit, decodeWords_jump a b 1 lit⟩
  · intro a b s
    have hzero : readReg b s = 0 ↔ (readReg b s).toNat = 0 := BitVec.toNat_inj.symm
    constructor
    · exact exec_onlyPc_of_branch (exec_jz a b s) ((jumpCondWith_zero_iff _ _ _).trans hzero)
    · rw [← ite_not]
      exact exec_onlyPc_of_branch (exec_jnz a b s) ((jumpCondWith_one_iff _ _ _).trans hzero.not)

/-! ### Conditions 2 and 3 -/

/-- Settles O24, from when conditions 2 and 3 hold. -/
theorem signTestJumps : Obligations.SignTestJumps := by
  unfold Obligations.SignTestJumps
  constructor
  · intro a b lit
    exact ⟨decodeWords_jump a b 2 lit, decodeWords_jump a b 3 lit⟩
  · intro a b s
    constructor
    · rw [← ite_not]
      exact exec_onlyPc_of_branch (exec_jneg a b s) (jumpCondWith_two_iff _ _ _)
    · exact exec_onlyPc_of_branch (exec_jpos a b s) (jumpCondWith_three_iff _ _ _)

/-- 0x8000 has bit 15 and no other. -/
theorem bit15_and_eq_zero {mask : Word} (h : mask.getLsbD 15 = false) : 0x8000 &&& mask = 0 := by
  have hbit : (0x8000 : Word) = BitVec.twoPow 16 15 := rfl
  rw [hbit, BitVec.twoPow_and, if_neg (Bool.eq_false_iff.mp h)]
  rfl

/-- R6: whatever the free value behind it, the mask is not bit 15 alone. -/
theorem signMask_ne_bit15 : signMask ≠ 0x8000 := by
  unfold signMask Config.signMask
  split
  · decide
  · assumption

theorem jumpCondWith_two_zeroMask (ext : Nibble → Word → Bool) (v : Word) : jumpCondWith 0 ext 2 v = false := by
  rw [← Bool.not_eq_true, jumpCondWith_two_iff, not_not]
  exact BitVec.and_zero

/-- Settles O26: 0x8000 has no bit in common with a mask without bit 15, and no word has one with mask 0. -/
theorem signTestIsNotBit15 : Obligations.SignTestIsNotBit15 := by
  unfold Obligations.SignTestIsNotBit15
  refine ⟨fun mask ext hmask => ⟨?_, ?_⟩, fun ext v => ⟨jumpCondWith_two_zeroMask ext v, ?_⟩,
    signMask_ne_bit15⟩
  · rw [← Bool.not_eq_true, jumpCondWith_two_iff, not_not]
    exact bit15_and_eq_zero hmask
  · rw [jumpCondWith_three_iff]
    exact ⟨by decide, bit15_and_eq_zero hmask⟩
  · rw [jumpCondWith_three, jumpCondWith_two_zeroMask, Bool.not_false, Bool.and_true]

end Sys2Proof.Machine
end

section
/-! The instruction a step runs (70_reset_and_hazards.md R156, R162), placed by the host or not, and the step port
(R157). -/

namespace Sys2Proof

/-! ### The words at hand of an instruction -/

/-- R62: only Load Immediate takes a literal from the words after its own. -/
theorem decodeWords_lit_irrelevant {w : Word} (h : opOf w ≠ 0x1) (lit lit' : Word) :
    decodeWords w lit = decodeWords w lit' := by
  apply encode_injective (wellFormed_decodeWords w lit) (wellFormed_decodeWords w lit')
  rw [reencodingClearsIgnoredBits w lit, reencodingClearsIgnoredBits w lit', if_neg h, if_neg h]

/-- R61: with two words at hand the decoder finds the instruction of these words, whatever it leaves over. -/
theorem decode_pair (w lit : Word) : ∃ rest, decode [w, lit] = .ok (decodeWords w lit, rest) := by
  by_cases hop : opOf w = 0x1
  · exact ⟨[], decode_two_words hop lit []⟩
  · exact ⟨[lit], by rw [decode_one_word hop, decodeWords_lit_irrelevant hop 0 lit]⟩

/-! ### The number of an instruction's words (log 11) -/

/-- The number whose bits 15:0 are the first word and whose bits 31:16 are the second, as the opcode table numbers
them. -/
def tableNumber (first second : Word) : Nat := first.toNat + 65536 * second.toNat

theorem ofNat_tableNumber (first second : Word) : BitVec.ofNat 16 (tableNumber first second) = first := by
  apply BitVec.eq_of_toNat_eq
  rw [BitVec.toNat_ofNat, tableNumber]
  omega

theorem ofNat_tableNumber_div (first second : Word) :
    BitVec.ofNat 16 (tableNumber first second / 2 ^ 16) = second := by
  apply BitVec.eq_of_toNat_eq
  rw [BitVec.toNat_ofNat, tableNumber]
  omega

/-- R61: the number of an instruction's words has 16 bits for each of them. -/
theorem tableNumber_encode_lt (i : Instr) :
    tableNumber (encodeFirst i) ((encode i)[1]?.getD 0) < 2 ^ (16 * i.length) := by
  have hfirst := (encodeFirst i).isLt
  rw [Instr.length_eq, tableNumber, encode_eq]
  split
  · omega
  · simpa using hfirst

theorem decodeTableWord_tableNumber {n : Nat} {first second : Word} (h : tableNumber first second < 2 ^ n) :
    decodeTableWord n (tableNumber first second) = some (decodeWords first second) := by
  obtain ⟨rest, hdecode⟩ := decode_pair first second
  simp only [decodeTableWord, Nat.mod_eq_of_lt h, ofNat_tableNumber, ofNat_tableNumber_div, hdecode]

namespace Machine

theorem withFetchWord_tableNumber {n : Nat} {first second : Word} (h : tableNumber first second < 2 ^ n) (s : State) :
    s.withFetchWord n (tableNumber first second) = memWrite .I (s.pc + 1) second (memWrite .I s.pc first s) := by
  simp only [State.withFetchWord, Nat.mod_eq_of_lt h, ofNat_tableNumber, ofNat_tableNumber_div]

/-- R45, R156: the fetch gives back the words that stand at pc and pc + 1, two different addresses. -/
theorem fetchInstr_placed (first second : Word) (s : State) :
    fetchInstr (memWrite .I (s.pc + 1) second (memWrite .I s.pc first s)) = decodeWords first second := by
  have hne : s.pc ≠ s.pc + 1 := by simp
  simp only [fetchInstr, fetchWord, fetchLiteral, memWrite_pc, memRead_memWrite, if_neg hne, if_true]

/-- Settles O7: the words fit in the bits, so that the host's decoder and the fetch both find them. -/
theorem placedInstructionRuns : Obligations.PlacedInstructionRuns := by
  unfold Obligations.PlacedInstructionRuns
  intro i s n hwf hn
  have hlt : tableNumber (encodeFirst i) ((encode i)[1]?.getD 0) < 2 ^ n :=
    (tableNumber_encode_lt i).trans_le (Nat.pow_le_pow_right (by decide) hn)
  have hfetch : fetchInstr (s.withFetchWord n (tableNumber (encodeFirst i) ((encode i)[1]?.getD 0))) = i := by
    rw [withFetchWord_tableNumber hlt, fetchInstr_placed, decodeWords_encodeFirst hwf]
  exact ⟨(decodeTableWord_tableNumber hlt).trans (congrArg some (decodeWords_encodeFirst hwf)),
    congrArg (exec · _) hfetch⟩

/-! ### The instruction at pc -/

/-- R156, R162: the fetched words are those of the fetched instruction, with none left over. -/
theorem decode_fetchWords (s : State) : decode (fetchWords s) = .ok (fetchInstr s, []) := by
  unfold fetchWords
  split
  · next htwo =>
    rw [decode_two_words (beq_iff_eq.mp htwo)]
    rfl
  · next hone =>
    have hop : opOf (fetchWord s) ≠ 0x1 := mt beq_iff_eq.mpr hone
    rw [decode_one_word hop, decodeWords_lit_irrelevant hop 0 (fetchLiteral s)]
    rfl

/-- Settles O8: either list of words decodes to the fetched instruction. -/
theorem stepRunsDecodedInstruction : Obligations.StepRunsDecodedInstruction := by
  unfold Obligations.StepRunsDecodedInstruction
  refine fun s i rest => ⟨fun h => ?_, fun h => ?_⟩
  · obtain ⟨rest', hdecode⟩ := decode_pair (memRead .I s.pc s) (memRead .I (s.pc + 1) s)
    cases hdecode.symm.trans h
    exact step_eq_exec_decodeWords s
  · cases (decode_fetchWords s).symm.trans h
    exact ⟨rfl, rfl⟩

/-! ### The step port -/

/-- R157: a run of n + 1 steps is a run of n and then one step. -/
theorem stepMany_succ_last (n : Nat) : ∀ {s t : State}, stepMany n s = .next t → stepMany (n + 1) s = step t := by
  induction n with
  | zero =>
    intro s t h
    cases h
    obtain ⟨u, hu⟩ := step_eq_next s
    rw [stepMany_succ hu, hu]
    rfl
  | succ n ih =>
    intro s t h
    obtain ⟨u, hu⟩ := step_eq_next s
    rw [stepMany_succ hu] at h ⊢
    exact ih h

/-- The host's run of the machine is the step port. -/
theorem core_run_eq_stepMany (n : Nat) : ∀ s : State, Host.Core.run core n s = stepMany n s := by
  induction n with
  | zero => exact fun _ => rfl
  | succ n ih =>
    intro s
    obtain ⟨t, ht⟩ := step_eq_next s
    have hcore : core.step s = .next t := ht
    have hrun : Host.Core.run core (n + 1) s = Host.Core.run core n t := by
      simp only [Host.Core.run, hcore]
    rw [hrun, ih t, stepMany_succ ht]

/-- Settles O10: no run fails, its last step can be split off, and the host's run is the same. -/
theorem stepPortRunsExactlyN : Obligations.StepPortRunsExactlyN := by
  unfold Obligations.StepPortRunsExactlyN
  refine fun s => ⟨rfl, fun n => ?_⟩
  obtain ⟨t, ht⟩ := stepMany_eq_next n s
  exact ⟨t, ht, stepMany_succ_last n ht, (core_run_eq_stepMany n s).trans ht⟩

end Machine
end Sys2Proof
end

section
/-! The load port (70_reset_and_hazards.md R151–R155): what the loader leaves in bank I, the warnings it gives and when
it fails. -/

namespace Sys2Proof.Machine

/-! ### One token -/

/-- R153: what stands for a token's value. -/
theorem loadedWord_toNat (n : Nat) : (loadedWord n).toNat = if 0xFFFF < n then 0 else n := by
  unfold loadedWord
  split
  · rfl
  · rw [BitVec.toNat_ofNat]
    omega

theorem mem_loadWarning {w : LoadWarning} {address n : Nat} :
    w ∈ loadWarning address n ↔ 0xFFFF < n ∧ w = .valueOutOfRange address := by
  unfold loadWarning
  split <;> simp [*]

/-- R154: with no room left the rest of the input is not looked at. -/
theorem loadFrom_full {k : Nat} (hk : bankSize ≤ k) (token : List Char) (ts : List (List Char)) (m : Memory) :
    loadFrom k (token :: ts) m = .ok (m, [.overflow]) := by
  rw [loadFrom, if_pos hk]

/-- R155, D20. -/
theorem loadFrom_bad {k : Nat} {token : List Char} (hk : k < bankSize) (h : tokenValue token = none)
    (ts : List (List Char)) (m : Memory) : loadFrom k (token :: ts) m = .error (.notHexadecimal k) := by
  rw [loadFrom, if_neg (Nat.not_le.mpr hk), h]

/-- R152, R153: a hexadecimal token is placed, and its warning comes before those of the tokens after it. -/
theorem loadFrom_good {k n : Nat} {token : List Char} (hk : k < bankSize) (h : tokenValue token = some n)
    (ts : List (List Char)) (m : Memory) :
    loadFrom k (token :: ts) m =
      (loadFrom (k + 1) ts (Memory.write m k (loadedWord n))).map fun r => (r.1, loadWarning k n ++ r.2) := by
  simp only [loadFrom, if_neg (Nat.not_le.mpr hk), h]
  cases loadFrom (k + 1) ts (Memory.write m k (loadedWord n)) <;> rfl

/-! ### What a list of values leaves -/

/-- R152, R153: the bank after the values are placed from address `k` on. -/
def placeValues (k : Nat) (ns : List Nat) (m : Memory) : Memory :=
  (ns.zipIdx k).foldl (fun m p => Memory.write m p.2 (loadedWord p.1)) m

/-- R153: the warnings of values placed from address `k` on. -/
def rangeWarnings (k : Nat) (ns : List Nat) : List LoadWarning :=
  (ns.zipIdx k).flatMap fun p => loadWarning p.2 p.1

/-- R154: the warning of a load that has `count` tokens left at address `k`. -/
def overflowWarning (k count : Nat) : List LoadWarning :=
  if bankSize - k < count then [.overflow] else []

theorem placeValues_cons (k n : Nat) (ns : List Nat) (m : Memory) :
    placeValues k (n :: ns) m = placeValues (k + 1) ns (Memory.write m k (loadedWord n)) := rfl

theorem rangeWarnings_cons (k n : Nat) (ns : List Nat) :
    rangeWarnings k (n :: ns) = loadWarning k n ++ rangeWarnings (k + 1) ns := rfl

theorem overflowWarning_succ {k : Nat} (hk : k < bankSize) (count : Nat) :
    overflowWarning k (count + 1) = overflowWarning (k + 1) count := by
  have hiff : bankSize - k < count + 1 ↔ bankSize - (k + 1) < count := by omega
  simp only [overflowWarning, hiff]

/-- R152–R154: a load whose tokens are hexadecimal as far as bank I has room. -/
theorem loadFrom_of_values (toks : List (List Char)) : ∀ (k : Nat) (ns : List Nat) (m : Memory),
    (toks.take (bankSize - k)).map tokenValue = ns.map some →
    loadFrom k toks m = .ok (placeValues k ns m, rangeWarnings k ns ++ overflowWarning k toks.length) := by
  induction toks with
  | nil =>
    intro k ns m h
    obtain rfl : ns = [] := by simpa using h.symm
    simp [loadFrom, placeValues, rangeWarnings, overflowWarning]
  | cons token ts ih =>
    intro k ns m h
    by_cases hk : bankSize ≤ k
    · have hroom : bankSize - k = 0 := by omega
      obtain rfl : ns = [] := by simpa [hroom] using h.symm
      simp [loadFrom_full hk, placeValues, rangeWarnings, overflowWarning, hroom]
    · have hlt : k < bankSize := Nat.not_le.mp hk
      have hroom : bankSize - k = bankSize - (k + 1) + 1 := by omega
      rw [hroom, List.take_succ_cons, List.map_cons] at h
      cases ns with
      | nil => cases h
      | cons n ns =>
        obtain ⟨hvalue, hrest⟩ := List.cons_eq_cons.mp h
        rw [loadFrom_good hlt hvalue, ih (k + 1) ns _ hrest, placeValues_cons, rangeWarnings_cons, List.length_cons,
          overflowWarning_succ hlt, List.append_assoc]
        rfl

theorem read_placeValues_of_lt (ns : List Nat) : ∀ {k a : Nat} (m : Memory), a < k →
    Memory.read (placeValues k ns m) a = Memory.read m a := by
  induction ns with
  | nil => exact fun _ _ => rfl
  | cons n ns ih =>
    intro k a m ha
    rw [placeValues_cons, ih _ (by omega), Memory.read_write, if_neg (Nat.ne_of_lt ha)]

/-- R152: value j goes to address `k + j`. -/
theorem read_placeValues (ns : List Nat) : ∀ (k j : Nat) (m : Memory),
    Memory.read (placeValues k ns m) (k + j) = (ns[j]?.map loadedWord).getD (Memory.read m (k + j)) := by
  induction ns with
  | nil => exact fun _ _ _ => rfl
  | cons n ns ih =>
    intro k j m
    rw [placeValues_cons]
    cases j with
    | zero =>
      rw [read_placeValues_of_lt ns _ (by omega), Memory.read_write]
      simp
    | succ j =>
      have haddress : k + (j + 1) = k + 1 + j := by omega
      rw [haddress, ih, Memory.read_write, if_neg (by omega)]
      rfl

/-- R152, R153: an address reads what stands for its value, or 0 if it has none. -/
theorem read_placeValues_zero_toNat (ns : List Nat) (a : Nat) :
    (Memory.read (placeValues 0 ns []) a).toNat =
      (ns[a]?.map fun n => if 0xFFFF < n then 0 else n).getD 0 := by
  have hread := read_placeValues ns 0 a []
  rw [Nat.zero_add] at hread
  rw [hread]
  cases ns[a]? with
  | none => rfl
  | some n => exact loadedWord_toNat n

/-- R153: the warnings name the addresses whose value is above 0xFFFF. -/
theorem mem_rangeWarnings_zero {w : LoadWarning} {ns : List Nat} :
    w ∈ rangeWarnings 0 ns ↔ ∃ a n, ns[a]? = some n ∧ 0xFFFF < n ∧ w = .valueOutOfRange a := by
  simp only [rangeWarnings, List.mem_flatMap, Prod.exists, List.mem_zipIdx_iff_getElem?, mem_loadWarning]
  exact exists_comm

theorem mem_overflowWarning {w : LoadWarning} {k count : Nat} :
    w ∈ overflowWarning k count ↔ bankSize - k < count ∧ w = .overflow := by
  unfold overflowWarning
  split <;> simp [*]

/-- Settles O41: the load leaves the values in place, with a warning for each value out of range and one if tokens are
left over. -/
theorem loaderFillsBankI : Obligations.LoaderFillsBankI := by
  unfold Obligations.LoaderFillsBankI
  intro toks ns h
  refine ⟨_, _, loadFrom_of_values toks 0 ns [] h, ?_, ?_, ?_, ?_, ?_⟩
  · intro k n hk hn
    simp [read_placeValues_zero_toNat, hk, Nat.not_lt.mpr hn]
  · intro k n hk hn
    simp [read_placeValues_zero_toNat, hk, hn]
  · intro k hk
    simp [read_placeValues_zero_toNat, hk]
  · intro k
    simp [mem_rangeWarnings_zero, mem_overflowWarning]
  · simp [mem_rangeWarnings_zero, mem_overflowWarning, bankSize]

/-! ### A token that is not hexadecimal -/

/-- R155: the tokens before it are placed, and then it makes the load fail at its own address. -/
theorem loadFrom_append_bad {tok : List Char} (htok : tokenValue tok = none) (bad good : List (List Char)) :
    ∀ (k : Nat) (m : Memory), (∀ t ∈ good, tokenValue t ≠ none) → k + good.length < bankSize →
      loadFrom k (good ++ tok :: bad) m = .error (.notHexadecimal (k + good.length)) := by
  induction good with
  | nil => exact fun k m _ hk => loadFrom_bad hk htok bad m
  | cons token ts ih =>
    intro k m hgood hk
    obtain ⟨htoken, hts⟩ := List.forall_mem_cons.mp hgood
    obtain ⟨n, hn⟩ := Option.ne_none_iff_exists'.mp htoken
    have haddress : k + (token :: ts).length = k + 1 + ts.length := by rw [List.length_cons]; omega
    rw [haddress] at hk ⊢
    rw [List.cons_append, loadFrom_good (by omega) hn, ih (k + 1) _ hts hk]
    rfl

/-- R155, R160: after a failed load there is no state to serve requests from. -/
theorem hostRun_of_boot_error {text : List Char} {e : LoadFailure} (h : boot text = .error e) (rs : List Request) :
    hostRun text rs = .error e := by
  simp only [hostRun, h]

/-- Settles O42, by induction on the tokens before the bad one. -/
theorem loaderFailsOnBadToken : Obligations.LoaderFailsOnBadToken := by
  unfold Obligations.LoaderFailsOnBadToken
  refine ⟨fun good bad tok hgood htok hroom => ?_, fun text e rs h => hostRun_of_boot_error h rs⟩
  have hfail := loadFrom_append_bad htok bad good 0 [] hgood (by rwa [Nat.zero_add])
  rwa [Nat.zero_add] at hfail

/-! ### The state after the load -/

/-- Settles O40: the load replaces bank I of the reset state, where pc is 0. -/
theorem bootLoadsBankIOnly : Obligations.BootLoadsBankIOnly := by
  unfold Obligations.BootLoadsBankIOnly
  intro text s ws h
  obtain ⟨m, hload, rfl⟩ := boot_eq_ok h
  exact ⟨⟨m, hload, fun _ => rfl⟩, rfl, step_eq_exec_decodeWords _⟩

end Sys2Proof.Machine
end

section
/-! The snapshot port (70_reset_and_hazards.md R158). -/

namespace Sys2Proof.Machine

/-- R158: the view has every register. -/
theorem viewOf_x (r : Reg) (s : State) : (viewOf s).x[r.val] = readReg r s := rfl

/-- R26, R158: a second view shows the flags as the first snapshot left them, clear. -/
theorem viewOf_clearUpdated (s : State) :
    viewOf (clearUpdated s) = { viewOf s with dUpd := false, sUpd := false } := rfl

/-- Settles O43: the view copies each field, and clearing the flags changes no register and no bank. -/
theorem snapshotShowsThenClears : Obligations.SnapshotShowsThenClears := by
  unfold Obligations.SnapshotShowsThenClears
  intro s
  refine ⟨viewOf s, clearUpdated s, rfl, fun r => viewOf_x r s, rfl, rfl, rfl, rfl, rfl, rfl, rfl, rfl,
    fun r => clearUpdated_reg r s, .of_memRead_eq fun B a => clearUpdated_mem B a s, rfl, rfl, rfl, rfl, rfl, ?_, ?_⟩
  · exact congrArg Snapshot.dUpd (viewOf_clearUpdated s)
  · exact congrArg Snapshot.sUpd (viewOf_clearUpdated s)

end Sys2Proof.Machine
end

section
/-! What the source leaves open at reset (10_state.md R32): `mar` and the updated flags, the spec's decisions D5 and D6. -/

namespace Sys2Proof.Machine

/-- R32, D5 (log 2). -/
@[simp] theorem State.mar_reset : State.reset.mar = 0 := rfl

/-- R32, D6 (log 3). -/
@[simp] theorem State.dUpd_reset : State.reset.dUpd = false := rfl

/-- R32, D6 (log 3). -/
@[simp] theorem State.sUpd_reset : State.reset.sUpd = false := rfl

/-- Settles O38: `mar` by D5, each updated flag by D6. -/
theorem resetObservationalState : Obligations.ResetObservationalState :=
  ⟨State.mar_reset, State.dUpd_reset, State.sUpd_reset⟩

end Sys2Proof.Machine
end
